-- ==== Sys2Proof/Word.lean ====
section
/-! DEFINITION. The widths the spec gives (00_scope.md R6, R7), as abbreviations of `BitVec` so that the library's
lemmas about bit vectors apply. -/

namespace Sys2Proof

/-- A symbol, an input byte, an output byte or a character: SYM_W = GROUP = 8 bits (R6). -/
abbrev Byte := BitVec 8

/-- A word of the tree word packer: WORD_W = 16 bits (R6). -/
abbrev Word16 := BitVec 16

/-- The declared byte count of a tree word packer run: LEN_W = 24 bits (R6). -/
abbrev Count := BitVec 24

/-- A command word or a status register: CMD_W = 32 bits (R6, 10_state.md section 6). -/
abbrev Word := BitVec 32

/-- A bit sequence, first bit first (R7). -/
abbrev Bits := List Bool

end Sys2Proof
end

