-- ==== Sys2Proof/Config.lean ====
section
/-! DEFINITION. The parameters of the block (00_scope.md R6). SYM_W, GROUP, WORD_W, CMD_W and LEN_W are the widths of
`Sys2Proof/Word.lean`; the one parameter the spec leaves OPEN, CODE_MAX, is a field of `Config`. -/

namespace Sys2Proof

/-- What an implementation fixes. R6 leaves CODE_MAX open ("a natural number ≥ 1 that the model takes as an argument");
`step` has no argument but the state, so the state carries this record, no step changes it, and a statement about every
state is a statement about every CODE_MAX (log entry 4). -/
structure Config where
  /-- CODE_MAX: the greatest number of bits one code table entry can hold (R6, decision D9). -/
  codeMax : Nat
deriving DecidableEq, Repr

/-- R6: CODE_MAX is at least 1. -/
abbrev Config.Legal (c : Config) : Prop := 1 ≤ c.codeMax

/-- CODE_MIN: the least length of a code that is present (R6). -/
def codeMin : Nat := 1

/-- The spec's suggested CODE_MAX (R6, GK2). DESIGN CHOICE for the reset state only (log entry 4). -/
def Config.suggested : Config := { codeMax := 255 }

end Sys2Proof
end

