-- ==== Sys2Proof/Syntax.lean ====
section
/-! DEFINITION. The eight commands (30_encoding.md R73), what decoding a word can answer (R77), and the abstract syntax
of the assembler's lines (R79, R80). -/

namespace Sys2Proof

/-- The two units of the block (00_scope.md R1); bit 31 of a command word names one (30_encoding.md R71, R72). -/
inductive UnitId where
  | bsp
  | twp
deriving DecidableEq, Repr

/-- The eight commands, one constructor per row of spec/opcode_table.json (R73). An operand has exactly the width its
field has (R74), so every value of this type is a command "with operands in range". -/
inductive Instr where
  /-- CTCLR, clear the code table (40_code_table.md R91). -/
  | ctclr
  /-- CTSEL, select entry `s` and make it absent (40_code_table.md R92). -/
  | ctsel (s : Byte)
  /-- CTBIT, append the binary digit `b` to the selected entry (40_code_table.md R93). -/
  | ctbit (b : Bool)
  /-- BSBEG, begin a bitstream packer run (41_bitstream_packer.md R103). -/
  | bsbeg
  /-- BSSYM, encode the input byte `v` (41_bitstream_packer.md R104). -/
  | bssym (v : Byte)
  /-- BSEND, flush the tail and complete the run (41_bitstream_packer.md R105). -/
  | bsend
  /-- TWBEG, begin a tree word packer run of `n` bytes (42_tree_word_packer.md R121). -/
  | twbeg (n : Count)
  /-- TWBYTE, supply the next byte of the buffer (42_tree_word_packer.md R122). -/
  | twbyte (v : Byte)
deriving DecidableEq, Repr

/-- The unit a command belongs to: OP bit 7 (R71). -/
def Instr.unit : Instr → UnitId
  | .ctclr => .bsp
  | .ctsel _ => .bsp
  | .ctbit _ => .bsp
  | .bsbeg => .bsp
  | .bssym _ => .bsp
  | .bsend => .bsp
  | .twbeg _ => .twp
  | .twbyte _ => .twp

/-- What decoding a 32-bit word answers (R77): one of the eight commands, or RESERVED with the unit that refuses it. -/
inductive Decoded where
  | command (i : Instr)
  | reserved (u : UnitId)
deriving DecidableEq, Repr

/-- One line of the assembler (R79) after its numbers have been read: the eight commands and `.word`, and the three
pseudo-commands of R80. Operands are numbers of any size here; `AsmLine.WellFormed` says which are legal. -/
inductive AsmLine where
  | ctclr
  | ctsel (s : Nat)
  | ctbit (b : Nat)
  | bsbeg
  | bssym (v : Nat)
  | bsend
  | twbeg (n : Nat)
  | twbyte (v : Nat)
  /-- `.word 0x........`: a raw word, the way a test presents a reserved word (R79). -/
  | word (w : Nat)
  /-- `ctcode <s>, "<digits>"` (R80). -/
  | ctcode (s : Nat) (digits : Bits)
  /-- `bspack <v0>, ..., <vm-1>` (R80). -/
  | bspack (vs : List Nat)
  /-- `twpack <v0>, ..., <vm-1>` (R80). -/
  | twpack (vs : List Nat)
deriving DecidableEq, Repr

end Sys2Proof
end

