-- ==== Sys2Proof/Machine/Operands.lean ====
section
/-! DEFINITION. The fields of a command word (30_encoding.md R71) and operand assembly (R74): every operand is an unsigned
integer taken from the low bits of ARG; there are no register operands and no addressing modes. -/

namespace Sys2Proof.Machine

/-- OP = W[31:24] (R71). -/
def opcodeOf (w : Word) : BitVec 8 := w.extractLsb' 24 8

/-- ARG = W[23:0] (R71). -/
def argOf (w : Word) : BitVec 24 := w.extractLsb' 0 24

/-- UNIT = W[31]: 0 names BSP, 1 names TWP (R71, R72). -/
def unitOf (w : Word) : UnitId := if w.getLsbD 31 then .twp else .bsp

/-- The symbol or byte operand ARG[7:0] (R74). -/
def byteOperand (arg : BitVec 24) : Byte := arg.extractLsb' 0 8

/-- ARG[23:8], which a command with a byte operand requires to be 0 (R75). -/
def aboveByte (arg : BitVec 24) : BitVec 16 := arg.extractLsb' 8 16

/-- The digit operand ARG[0] (R74). -/
def bitOperand (arg : BitVec 24) : Bool := arg.getLsbD 0

/-- ARG[23:1], which CTBIT requires to be 0 (R75). -/
def aboveBit (arg : BitVec 24) : BitVec 23 := arg.extractLsb' 1 23

/-- The count operand ARG[23:0] (R74). -/
def countOperand (arg : BitVec 24) : Count := arg

end Sys2Proof.Machine
end

