-- ==== Sys2Proof/WellFormed.lean ====
section
/-! DEFINITION. Which commands and which assembler lines are well formed (30_encoding.md R74, R79, R80). -/

namespace Sys2Proof

/-- The operand of a command is in the range R79 gives for it. `Instr` holds each operand at the width of its field, so
the check holds of every value; it is stated so that "operands in range" (R77) has a name. -/
abbrev Instr.WellFormed : Instr → Prop
  | .ctclr => True
  | .ctsel s => s.toNat ≤ 255
  | .ctbit _ => True
  | .bsbeg => True
  | .bssym v => v.toNat ≤ 255
  | .bsend => True
  | .twbeg n => n.toNat ≤ 16777215
  | .twbyte v => v.toNat ≤ 255

/-- An assembler line the assembler accepts (R79: "An operand out of its range is an assembly error"; R80: "`ctcode`
with an empty string is an assembly error"; `twpack` of any number of operands, odd ones included). That a
`twpack` of more operands than `twbeg` can declare, or a raw word of more than 32 bits, is an assembly error is the model's
choice (log entry 9). -/
def AsmLine.wellFormed : AsmLine → Bool
  | .ctclr => true
  | .ctsel s => decide (s ≤ 255)
  | .ctbit b => decide (b ≤ 1)
  | .bsbeg => true
  | .bssym v => decide (v ≤ 255)
  | .bsend => true
  | .twbeg n => decide (n ≤ 16777215)
  | .twbyte v => decide (v ≤ 255)
  | .word w => decide (w < 2 ^ 32)
  | .ctcode s digits => decide (s ≤ 255) && !digits.isEmpty
  | .bspack vs => vs.all (fun v => decide (v ≤ 255))
  | .twpack vs => vs.all (fun v => decide (v ≤ 255)) && decide (vs.length ≤ 16777215)

end Sys2Proof
end

