-- ==== Sys2Proof/Decode.lean ====
section
/-! DEFINITION. The decoder, total on 32-bit words, which names the refusing unit of a reserved word (30_encoding.md
R75 to R78), and the encoder (R73, R77). -/

namespace Sys2Proof

open Sys2Proof.Machine

/-- R77's decoder, test by test in its order. Decoding never depends on state (R78). -/
def decode (w : Word) : Decoded :=
  let op := opcodeOf w
  let arg := argOf w
  if op = 0x01 ∧ arg = 0 then .command .ctclr
  else if op = 0x02 ∧ aboveByte arg = 0 then .command (.ctsel (byteOperand arg))
  else if op = 0x03 ∧ aboveBit arg = 0 then .command (.ctbit (bitOperand arg))
  else if op = 0x04 ∧ arg = 0 then .command .bsbeg
  else if op = 0x05 ∧ aboveByte arg = 0 then .command (.bssym (byteOperand arg))
  else if op = 0x06 ∧ arg = 0 then .command .bsend
  else if op = 0x81 then .command (.twbeg (countOperand arg))
  else if op = 0x82 ∧ aboveByte arg = 0 then .command (.twbyte (byteOperand arg))
  else .reserved (unitOf w)

/-- The word of a command: `match | operand` (R77), with the match values of R73. -/
def encode : Instr → Word
  | .ctclr => 0x01000000
  | .ctsel s => 0x02000000 ||| s.zeroExtend 32
  | .ctbit b => 0x03000000 ||| (BitVec.ofBool b).zeroExtend 32
  | .bsbeg => 0x04000000
  | .bssym v => 0x05000000 ||| v.zeroExtend 32
  | .bsend => 0x06000000
  | .twbeg n => 0x81000000 ||| n.zeroExtend 32
  | .twbyte v => 0x82000000 ||| v.zeroExtend 32

/-- The 32-bit command word whose low `nbits` bits are `w`, every higher bit 0. A command is one word on a parallel port
and has no byte order (R70), so no bytes are laid out (log entry 12). -/
def fetchWord (nbits w : Nat) : Word := BitVec.ofNat 32 (w % 2 ^ nbits)

/-- The command the decoder reads from the word whose bits are `w`, none where the word is reserved. -/
def decodeTableWord (nbits w : Nat) : Option Instr :=
  match decode (fetchWord nbits w) with
  | .command i => some i
  | .reserved _ => none

end Sys2Proof
end

