-- ==== Sys2Proof/Machine/State.lean ====
section
/-! DEFINITION. The state of the block (10_state.md), the inputs the host has yet to apply (70_reset_and_hazards.md R170,
R182), the reasons a step could stop, and the state after reset (10_state.md R44). -/

namespace Sys2Proof.Machine

/-- The run state of a unit (10_state.md R30). -/
inductive Phase where
  | idle
  | run
  | done
  | fault
deriving DecidableEq, Repr

/-- The fault codes 0 to 4 of 60_exceptions.md R140, the values a 3-bit CAUSE field has a name for. "Codes 5, 6 and 7 of
the 3-bit CAUSE fields are unused and never appear" (log entry 8). -/
inductive Cause where
  | none
  | usageError
  | missingCodeEntry
  | malformedTreeLength
  | tailPackingDegenerate
deriving DecidableEq, Repr

/-- The code table CT: 256 entries indexed by byte value, each a bit sequence, first bit first; the empty one means
absent (10_state.md R22). It is the only addressed storage; there is no memory (20_memory.md R50, R51; log entry 15). -/
abbrev CodeTable := Vector Bits 256

/-- The bitstream packer with its code table and load pointer (10_state.md R22 to R32). -/
structure Bsp where
  /-- CT (R22). -/
  ct : CodeTable
  /-- SEL.V: an entry is selected (R23). -/
  selV : Bool
  /-- SEL.I: which one (R23). -/
  selI : Byte
  /-- BS.PHASE (R30). -/
  phase : Phase
  /-- BS.ACC, the 8-bit shift register (R24). -/
  acc : Byte
  /-- BS.CNT, the number of bits held in BS.ACC (R25). -/
  cnt : BitVec 3
  /-- BS.PAD, the pad length of the last completed run (R26). -/
  pad : BitVec 3
  /-- BS.CAUSE (R31). -/
  cause : Cause
  /-- BS.FSYM, the faulting symbol (R27). -/
  fsym : Byte
  /-- BS.ILL, the refusal flag (R32). -/
  ill : Bool
  /-- BS.OUT, the output byte stream in emission order, of any length (R28; log entry 13). -/
  out : List Byte
deriving DecidableEq, Repr

/-- The tree word packer (10_state.md R30 to R38). -/
structure Twp where
  /-- TW.PHASE (R30). -/
  phase : Phase
  /-- TW.LOW, the low byte of the pair being assembled (R33). -/
  low : Byte
  /-- TW.HAVE: TW.LOW waits for its high byte (R34). -/
  haveLow : Bool
  /-- TW.REM, the bytes of the declared buffer that have not arrived (R35). -/
  rem : Count
  /-- TW.SEP: a value has been rendered in this run (R36). -/
  sep : Bool
  /-- TW.CAUSE (R31). -/
  cause : Cause
  /-- TW.ILL, the refusal flag (R32). -/
  ill : Bool
  /-- TW.WOUT, the output word stream in emission order (R37). -/
  wout : List Word16
  /-- TW.TXT, the output character stream in emission order (R38). -/
  txt : List Byte
deriving DecidableEq, Repr

/-- What the host can do to the block that changes its state (70_reset_and_hazards.md R182). Reading a status register
or a stream changes nothing and is a function of the state, not an input (10_state.md section 6). -/
inductive HostInput where
  /-- A command word presented on the command port (30_encoding.md R70). -/
  | command (w : Word)
  /-- Reset applied, with the word the command port shows meanwhile, if any: "A command presented while reset is applied
  is not executed" (R170). Reset lands between commands (log entry 7). -/
  | reset (presented : Option Word)
deriving DecidableEq, Repr

/-- The whole state. `bs` and `tw` are the architectural state of 10_state.md sections 2 to 5 (R48: there is no other).
`config` and `inputs` are the parameters of the step function (R49: CODE_MAX, the command word presented at a step,
whether reset is applied at a step): the type of `step` leaves them no other place than the state (log entries 1 and 4). -/
structure State where
  /-- The bitstream packer. -/
  bs : Bsp
  /-- The tree word packer. -/
  tw : Twp
  /-- The block's parameters; no step changes them. -/
  config : Config
  /-- What the host applies next, oldest first; each step takes the first. -/
  inputs : List HostInput
deriving DecidableEq, Repr

/-- The reasons the machine could stop with a fault. The spec's two faults stop nothing: they put a unit in phase FAULT,
and the block goes on (60_exceptions.md R150, R151). -/
inductive Fault where
  /-- The document's class of code 4, "fatal if reproduced literally". Raised by nobody: the hardware does not reproduce
  it (60_exceptions.md R145, decision D12; log entry 14). Safe: no step answers it. -/
  | tailPackingDegenerate
deriving DecidableEq, Repr

/-- The reasons the model could refuse an instruction. What the spec calls a refusal is an effect (the unit's ILL bit is
set and the block goes on, 60_exceptions.md R144) and never one of these. -/
inductive Refusal where
  /-- An instruction of the opcode table that has no meaning yet, by its mnemonic. Raised by the arms of `exec` that are
  rejected by name, and no arm is. Safe: the model stops where the hardware goes on. -/
  | notModelled (mnemonic : String)
deriving DecidableEq, Repr

/-- BSP after reset (10_state.md R44). -/
def Bsp.reset : Bsp where
  ct := Vector.replicate 256 []
  selV := false
  selI := 0
  phase := .idle
  acc := 0
  cnt := 0
  pad := 0
  cause := .none
  fsym := 0
  ill := false
  out := []

/-- TWP after reset (10_state.md R44). -/
def Twp.reset : Twp where
  phase := .idle
  low := 0
  haveLow := false
  rem := 0
  sep := false
  cause := .none
  ill := false
  wout := []
  txt := []

/-- The block after reset (10_state.md R44, 70_reset_and_hazards.md R171), with the suggested CODE_MAX (DESIGN CHOICE, log
entry 4) and no input presented yet (log entry 2). -/
def State.reset : State where
  bs := Bsp.reset
  tw := Twp.reset
  config := Config.suggested
  inputs := []

end Sys2Proof.Machine
end

