-- ==== Sys2Proof/Machine/DataModel.lean ====
section
/-! DEFINITION. The pure functions of the document's data model and algorithms (00_scope.md R9 to R17). They read no
state. The commands compute with `word` and `dec`; the others say what a whole run produces. -/

namespace Sys2Proof.Machine

/-- The unsigned value of a bit sequence whose first bit is the most significant. -/
def natOfBits (g : Bits) : Nat := g.foldl (fun n b => 2 * n + b.toNat) 0

/-- `byte_of_bits(g)`, for 8 bits: Σ g[i] · 2^(7−i), the first bit the most significant (R9, 20_memory.md R53). -/
def byteOfBits (g : Bits) : Byte := BitVec.ofNat 8 (natOfBits g)

/-- The bits of a byte, most significant first: how a mixed-width view reads BS.OUT (20_memory.md R56 (a)). -/
def bitsOfByte (v : Byte) : Bits := (List.range 8).map (fun i => v.getLsbD (7 - i))

/-- `pad8(t)`: pad on the right with zeros to 8 bits (R10). -/
def pad8 (t : Bits) : Bits := t ++ List.replicate (8 - t.length) false

/-- `padlen(n) = (8 − (n mod 8)) mod 8` (R10). -/
def padlen (n : Nat) : Nat := (8 - n % 8) % 8

/-- The entry of a byte value, the empty sequence when absent: `CT[s]` read (R8, 10_state.md R22). -/
def CodeTable.lookup (t : CodeTable) (v : Byte) : Bits := t[v.toNat]'v.isLt

/-- `bitseq(T, input)`, undefined (none) when some byte of the input has no entry (R11). -/
def bitseq (t : CodeTable) : List Byte → Option Bits
  | [] => some []
  | v :: vs => if t.lookup v = [] then none else (bitseq t vs).map (fun b => t.lookup v ++ b)

/-- The bytes of the full groups of eight of a bit sequence, `packed(B)[k]` for k < q (R12). -/
def fullGroups (b : Bits) : List Byte :=
  (List.range (b.length / 8)).map (fun k => byteOfBits ((b.drop (8 * k)).take 8))

/-- The bits after the last full group, `B[8q .. 8q+r)` (R12). -/
def tailBits (b : Bits) : Bits := b.drop (8 * (b.length / 8))

/-- `packed(B)`: the full groups, and the padded tail byte if, and only if, the length is no multiple of 8 (R12, decision
D12; log entry 11). -/
def packed (b : Bits) : List Byte :=
  fullGroups b ++ if b.length % 8 = 0 then [] else [byteOfBits (pad8 (tailBits b))]

/-- `pack(T, input) = packed(bitseq(T, input))`, which fails if a byte has no entry (R13). -/
def pack (t : CodeTable) (input : List Byte) : Option (List Byte) := (bitseq t input).map packed

/-- `word(lo, hi) = lo | (hi << 8)` in 16 bits (R14, 42_tree_word_packer.md R123). -/
def word (lo hi : Byte) : Word16 := lo.zeroExtend 16 ||| (hi.zeroExtend 16 <<< 8)

/-- `words(buf)`, undefined (none) for odd length (R14). -/
def words : List Byte → Option (List Word16)
  | [] => some []
  | [_] => none
  | lo :: hi :: rest => (words rest).map (fun ws => word lo hi :: ws)

/-- The character codes of R17 (GK1, decision D17; log entry 11): 7-bit ASCII in 8-bit characters. -/
def openBrace : Byte := 0x7B
def closeBrace : Byte := 0x7D
def comma : Byte := 0x2C
def space : Byte := 0x20

/-- The character of a decimal digit: 0x30 + d (R15, R17). -/
def digitChar (d : Nat) : Byte := BitVec.ofNat 8 (0x30 + d)

/-- R15's `digits(v)`, most significant first, by `fuel` divisions at most. -/
def digits : Nat → Nat → List Byte
  | 0, _ => []
  | fuel + 1, v => if v = 0 then [] else digits fuel (v / 10) ++ [digitChar (v % 10)]

/-- `dec(w)`: the decimal numeral, "0" for zero, no leading zero (R15). Five digits are enough for 16 bits. -/
def dec (w : Word16) : List Byte := if w = 0 then [digitChar 0] else digits 5 w.toNat

/-- The separator ", " (R16). -/
def separator : List Byte := [comma, space]

/-- The values of a literal without its braces: the numerals with the separator between consecutive ones only (R16). -/
def values : List Word16 → List Byte
  | [] => []
  | [w] => dec w
  | w :: v :: ws => dec w ++ separator ++ values (v :: ws)

/-- `literal(ws)` (R16). -/
def literal (ws : List Word16) : List Byte := [openBrace] ++ values ws ++ [closeBrace]

end Sys2Proof.Machine
end

