-- ==== Sys2Proof/Machine/Ops.lean ====
section
/-! DEFINITION. The shared operations of the commands: writes of the code table, stream appends, refusal, fault entry
and the begin operations that leave a fault, the bit writer, and reset (00_scope.md R8; 60_exceptions.md R144, R150, R152;
41_bitstream_packer.md R101, R102; 70_reset_and_hazards.md R170). -/

namespace Sys2Proof.Machine

/-- `CT[s] <- c` (00_scope.md R8). -/
def CodeTable.put (t : CodeTable) (v : Byte) (c : Bits) : CodeTable := t.set v.toNat c v.isLt

/-- Every entry absent (40_code_table.md R91). -/
def CodeTable.cleared : CodeTable := Vector.replicate 256 []

/-- `emit(S, v)`: append one value at the end of a stream (00_scope.md R8). -/
def emit {α : Type} (stream : List α) (v : α) : List α := stream ++ [v]

/-- `emit_str(S, ...)`: append characters one after another, first character first (00_scope.md R8). -/
def emitStr (stream : List Byte) (chars : List Byte) : List Byte := stream ++ chars

/-- `refuse`, 60_exceptions.md R144: the whole effect is that the unit's ILL bit becomes 1. -/
def refuse (u : UnitId) (s : State) : State :=
  match u with
  | .bsp => { s with bs := { s.bs with ill := true } }
  | .twp => { s with tw := { s.tw with ill := true } }

/-- The two faults with the value each records (60_exceptions.md R140, R150). -/
inductive RaisedFault where
  | missingCodeEntry (v : Byte)
  | malformedTreeLength (n : Count)
deriving DecidableEq, Repr

/-- Fault entry, `raise F(info)` (60_exceptions.md R150): the unit's CAUSE, the faulting value and the phase, nothing
else. The count of a malformed length is already in TW.REM, where the command put it. -/
def raiseFault (f : RaisedFault) (s : State) : State :=
  match f with
  | .missingCodeEntry v =>
    { s with bs := { s.bs with cause := .missingCodeEntry, fsym := v, phase := .fault } }
  | .malformedTreeLength _ =>
    { s with tw := { s.tw with cause := .malformedTreeLength, phase := .fault } }

/-- What beginning a BSP run clears (41_bitstream_packer.md R103), the only way but reset out of phase FAULT
(60_exceptions.md R152); CT, SEL and BS.ILL stay. -/
def clearBsp (u : Bsp) : Bsp :=
  { u with acc := 0, cnt := 0, pad := 0, fsym := 0, cause := .none, out := [] }

/-- What beginning a TWP run clears, and the count it writes (42_tree_word_packer.md R121); TW.ILL stays. -/
def clearTwp (n : Count) (u : Twp) : Twp :=
  { u with low := 0, haveLow := false, sep := false, cause := .none, wout := [], txt := [], rem := n }

/-- `(BS.ACC << 1) | b` in 8 bits (41_bitstream_packer.md R101). -/
def shiftIn (acc : Byte) (b : Bool) : Byte := (acc <<< 1) ||| (BitVec.ofBool b).zeroExtend 8

/-- `push_bit(b)` (41_bitstream_packer.md R101): the eighth bit completes and emits a byte. -/
def pushBit (u : Bsp) (b : Bool) : Bsp :=
  if u.cnt = 7 then
    { u with out := emit u.out (shiftIn u.acc b), acc := 0, cnt := 0 }
  else
    { u with acc := shiftIn u.acc b, cnt := u.cnt + 1 }

/-- `append_code(c)`: push the bits of a code in order (41_bitstream_packer.md R102). -/
def appendCode (u : Bsp) (c : Bits) : Bsp := c.foldl pushBit u

/-- `(8 − BS.CNT) mod 8`, computed in natural numbers (41_bitstream_packer.md R105, R112). -/
def padOfCnt (cnt : BitVec 3) : BitVec 3 := BitVec.ofNat 3 ((8 - cnt.toNat) % 8)

/-- The tail byte `(BS.ACC << (8 − BS.CNT)) & 0xFF` (41_bitstream_packer.md R105). -/
def tailByte (acc : Byte) (cnt : BitVec 3) : Byte := acc <<< (8 - cnt.toNat)

/-- Flush the held bits, if there are any, as the tail byte (41_bitstream_packer.md R105). -/
def flushTail (u : Bsp) : Bsp :=
  if u.cnt = 0 then u else { u with out := emit u.out (tailByte u.acc u.cnt), acc := 0, cnt := 0 }

/-- Applying reset: the state of 10_state.md R44 whatever the state was (70_reset_and_hazards.md R170). The parameters and
what the host applies later are not state of the block and stay (log entry 5). -/
def applyReset (s : State) : State :=
  { s with bs := State.reset.bs, tw := State.reset.tw }

end Sys2Proof.Machine
end

