-- ==== Sys2Proof/Machine/BitstreamPacker.lean ====
section
/-! DEFINITION. The bitstream packer commands BSBEG, BSSYM, BSEND (41_bitstream_packer.md R100 to R106). -/

namespace Sys2Proof.Machine

/-- BSBEG (R103). -/
def execBsbeg (s : State) : Host.Outcome State Fault Refusal :=
  if s.bs.phase = .run then .next (refuse .bsp s)
  else .next { s with bs := { clearBsp s.bs with phase := .run } }

/-- BSSYM (R104): a byte value that is absent from the table takes the fault entry of 60_exceptions.md R150. -/
def execBssym (v : Byte) (s : State) : Host.Outcome State Fault Refusal :=
  if s.bs.phase ≠ .run then .next (refuse .bsp s)
  else if s.bs.ct.lookup v = [] then .next (raiseFault (.missingCodeEntry v) s)
  else .next { s with bs := appendCode s.bs (s.bs.ct.lookup v) }

/-- BSEND (R105); BS.PAD is computed from BS.CNT before the flush clears it, and no byte is emitted when BS.CNT = 0
(R106). -/
def execBsend (s : State) : Host.Outcome State Fault Refusal :=
  if s.bs.phase ≠ .run then .next (refuse .bsp s)
  else .next { s with bs := { flushTail s.bs with pad := padOfCnt s.bs.cnt, phase := .done } }

end Sys2Proof.Machine
end

