-- ==== Sys2Proof/Machine/CodeTable.lean ====
section
/-! DEFINITION. The code table commands CTCLR, CTSEL, CTBIT (40_code_table.md R90 to R93). -/

namespace Sys2Proof.Machine

/-- CTCLR (R91). -/
def execCtclr (s : State) : Host.Outcome State Fault Refusal :=
  if s.bs.phase = .run then .next (refuse .bsp s)
  else .next { s with bs := { s.bs with ct := CodeTable.cleared, selV := false, selI := 0 } }

/-- CTSEL (R92). -/
def execCtsel (i : Byte) (s : State) : Host.Outcome State Fault Refusal :=
  if s.bs.phase = .run then .next (refuse .bsp s)
  else .next { s with bs := { s.bs with ct := s.bs.ct.put i [], selV := true, selI := i } }

/-- CTBIT (R93): the admission tests in the order phase, SEL.V, length (60_exceptions.md R147). -/
def execCtbit (b : Bool) (s : State) : Host.Outcome State Fault Refusal :=
  if s.bs.phase = .run then .next (refuse .bsp s)
  else if s.bs.selV = false then .next (refuse .bsp s)
  else if s.config.codeMax ≤ (s.bs.ct.lookup s.bs.selI).length then .next (refuse .bsp s)
  else .next { s with bs := { s.bs with ct := s.bs.ct.put s.bs.selI (s.bs.ct.lookup s.bs.selI ++ [b]) } }

end Sys2Proof.Machine
end

