-- ==== Sys2Proof/Machine/TreeWordPacker.lean ====
section
/-! DEFINITION. The tree word packer commands TWBEG, TWBYTE (42_tree_word_packer.md R120 to R125). -/

namespace Sys2Proof.Machine

/-- TWBEG (R121): the clearing, then the parity test (bit 0 of `n`), then the opening brace; `n = 0` completes at once. -/
def execTwbeg (n : Count) (s : State) : Host.Outcome State Fault Refusal :=
  if s.tw.phase = .run then .next (refuse .twp s)
  else
    let s₁ := { s with tw := clearTwp n s.tw }
    if n.getLsbD 0 then .next (raiseFault (.malformedTreeLength n) s₁)
    else
      let opened := emitStr s₁.tw.txt [openBrace]
      if n = 0 then .next { s₁ with tw := { s₁.tw with txt := emitStr opened [closeBrace], phase := .done } }
      else .next { s₁ with tw := { s₁.tw with txt := opened, phase := .run } }

/-- The text after one more word: the separator if a word was already rendered, then the numeral (R124). -/
def renderWord (sep : Bool) (txt : List Byte) (w : Word16) : List Byte :=
  emitStr (if sep then emitStr txt separator else txt) (dec w)

/-- The second byte of a pair (R122): the word is emitted and rendered, and the last one closes the literal. -/
def completePair (v : Byte) (u : Twp) : Twp :=
  let w := word u.low v
  let u₁ :=
    { u with
      wout := emit u.wout w
      txt := renderWord u.sep u.txt w
      sep := true
      haveLow := false
      rem := u.rem - 1 }
  if u₁.rem = 0 then { u₁ with txt := emitStr u₁.txt [closeBrace], phase := .done } else u₁

/-- TWBYTE (R122). -/
def execTwbyte (v : Byte) (s : State) : Host.Outcome State Fault Refusal :=
  if s.tw.phase ≠ .run then .next (refuse .twp s)
  else if s.tw.haveLow = false then
    .next { s with tw := { s.tw with low := v, haveLow := true, rem := s.tw.rem - 1 } }
  else .next { s with tw := completePair v s.tw }

end Sys2Proof.Machine
end

