-- ==== Sys2Proof/Machine/Dispatch.lean ====
section
/-! DEFINITION. The one dispatch from a command to its meaning. -/

namespace Sys2Proof.Machine

def exec (i : Instr) (s : State) : Host.Outcome State Fault Refusal :=
  match i with
  -- 40_code_table.md
  | .ctclr => Sys2Proof.Machine.execCtclr s
  | .ctsel e => Sys2Proof.Machine.execCtsel e s
  | .ctbit b => Sys2Proof.Machine.execCtbit b s
  -- 41_bitstream_packer.md
  | .bsbeg => Sys2Proof.Machine.execBsbeg s
  | .bssym v => Sys2Proof.Machine.execBssym v s
  | .bsend => Sys2Proof.Machine.execBsend s
  -- 42_tree_word_packer.md
  | .twbeg n => Sys2Proof.Machine.execTwbeg n s
  | .twbyte v => Sys2Proof.Machine.execTwbyte v s

end Sys2Proof.Machine
end

