-- ==== Sys2Proof/Machine/Flags.lean ====
section
/-! DEFINITION. The block has no arithmetic flags (10_state.md R29). This file holds what the host reads of the one-bit
and status state: the codes of PHASE and CAUSE and the four read-only status registers (10_state.md R30, R31, R39 to
R43). Reading one is a function of the state and has no side effect. -/

namespace Sys2Proof.Machine

/-- The 2-bit code of a phase (10_state.md R30). -/
def Phase.code : Phase → BitVec 2
  | .idle => 0
  | .run => 1
  | .done => 2
  | .fault => 3

/-- The 3-bit code of a fault cause (60_exceptions.md R140). -/
def Cause.code : Cause → BitVec 3
  | .none => 0
  | .usageError => 1
  | .missingCodeEntry => 2
  | .malformedTreeLength => 3
  | .tailPackingDegenerate => 4

/-- A field of a status register: the value at the bits from `lo` up, 0 elsewhere. -/
def field {width : Nat} (lo : Nat) (v : BitVec width) : Word := v.zeroExtend 32 <<< lo

/-- BS_STAT (R39): PHASE 1:0, ILL 2, CAUSE 5:3, CNT 8:6, PAD 11:9, ACC 19:12, FSYM 27:20; 31:28 read 0. -/
def bsStat (s : State) : Word :=
  field 0 s.bs.phase.code ||| field 2 (BitVec.ofBool s.bs.ill) ||| field 3 s.bs.cause.code ||| field 6 s.bs.cnt |||
    field 9 s.bs.pad ||| field 12 s.bs.acc ||| field 20 s.bs.fsym

/-- CT_SEL (R40): SEL.I 7:0, SEL.V 8; 31:9 read 0. -/
def ctSel (s : State) : Word :=
  field 0 s.bs.selI ||| field 8 (BitVec.ofBool s.bs.selV)

/-- TW_STAT (R41): PHASE 1:0, ILL 2, CAUSE 5:3, HAVE 6, SEP 7, LOW 15:8; 31:16 read 0. -/
def twStat (s : State) : Word :=
  field 0 s.tw.phase.code ||| field 2 (BitVec.ofBool s.tw.ill) ||| field 3 s.tw.cause.code |||
    field 6 (BitVec.ofBool s.tw.haveLow) ||| field 7 (BitVec.ofBool s.tw.sep) ||| field 8 s.tw.low

/-- TW_REM (R42): TW.REM 23:0; 31:24 read 0. -/
def twRem (s : State) : Word := field 0 s.tw.rem

/-- The status register of a number. "Status register numbers 2 to 7 and 10 and above do not exist" (R42;
log entry 16). -/
def readStatus (number : Nat) (s : State) : Option Word :=
  if number = 0 then some (bsStat s)
  else if number = 1 then some (ctSel s)
  else if number = 8 then some (twStat s)
  else if number = 9 then some (twRem s)
  else Option.none

end Sys2Proof.Machine
end

