-- ==== Sys2Proof/Machine/Step.lean ====
section
/-! DEFINITION. One step: the host's oldest pending input is taken and carried out as a whole (20_memory.md R60,
60_exceptions.md R147, 70_reset_and_hazards.md R170). -/

namespace Sys2Proof.Machine

/-- One step of the block. With a command word it decodes; a reserved word is refused by the unit its bit 31 names
(30_encoding.md R76); a command is dispatched, and its meaning tests admission and then its own fault. With reset it takes
the reset state and the word presented meanwhile is not executed. With no input it idles: no state is lost or changed
(60_exceptions.md R161; log entry 3). A word presented is accepted at once (70_reset_and_hazards.md R181; log entry 6). -/
def step (s : State) : Host.Outcome State Fault Refusal :=
  match s.inputs with
  | [] => .next s
  | .reset _ :: rest => .next (applyReset { s with inputs := rest })
  | .command w :: rest =>
    match decode w with
    | .command i => exec i { s with inputs := rest }
    | .reserved u => .next (refuse u { s with inputs := rest })

/-- The state in which the next input is the command word whose bits are `w`: the host presents it. -/
def State.withFetchWord (s : State) (nbits w : Nat) : State :=
  { s with inputs := .command (fetchWord nbits w) :: s.inputs }

end Sys2Proof.Machine
end

