-- ==== Sys2Proof/Machine/Assembler.lean ====
section
/-! DEFINITION. The host's side of the command port: the expansion of the pseudo-commands (30_encoding.md R80), the
assembler from lines to words (R79), and how a code table reaches the block (40_code_table.md R94). No step uses it. -/

namespace Sys2Proof.Machine

/-- The symbol or byte a number names; the caller has checked the range. -/
def byteOf (v : Nat) : Byte := BitVec.ofNat 8 v

/-- `ctcode s, "d0 ... dk-1"`: CTSEL, then one CTBIT per digit in order (R80). -/
def ctcode (s : Byte) (digits : Bits) : List Instr := .ctsel s :: digits.map .ctbit

/-- `bspack v0, ..., vm-1`: BSBEG, one BSSYM per byte in order, BSEND (R80). -/
def bspack (input : List Byte) : List Instr := .bsbeg :: input.map .bssym ++ [.bsend]

/-- `twpack v0, ..., vm-1`: TWBEG of the count, then one TWBYTE per byte in order (R80). -/
def twpack (buf : List Byte) : List Instr := .twbeg (BitVec.ofNat 24 buf.length) :: buf.map .twbyte

/-- Loading a code table, one (key, code) pair after another (40_code_table.md R94). -/
def loadTable (pairs : List (Byte × Bits)) : List Instr := pairs.flatMap (fun p => ctcode p.1 p.2)

/-- The words of a command sequence, as the host presents them. -/
def wordsOf (is : List Instr) : List Word := is.map encode

/-- The words of a line, its operands taken as they are (R79, R80). -/
def AsmLine.expand : AsmLine → List Word
  | .ctclr => [encode .ctclr]
  | .ctsel s => [encode (.ctsel (byteOf s))]
  | .ctbit b => [encode (.ctbit (decide (b = 1)))]
  | .bsbeg => [encode .bsbeg]
  | .bssym v => [encode (.bssym (byteOf v))]
  | .bsend => [encode .bsend]
  | .twbeg n => [encode (.twbeg (BitVec.ofNat 24 n))]
  | .twbyte v => [encode (.twbyte (byteOf v))]
  | .word w => [BitVec.ofNat 32 w]
  | .ctcode s digits => wordsOf (ctcode (byteOf s) digits)
  | .bspack vs => wordsOf (bspack (vs.map byteOf))
  | .twpack vs => wordsOf (twpack (vs.map byteOf))

/-- The assembler on one line: an ill-formed line is an assembly error, none (R79, R80). -/
def assemble (l : AsmLine) : Option (List Word) := if AsmLine.wellFormed l then some (AsmLine.expand l) else none

/-- A blank: a space or a tab (log entry 9). -/
def isBlank (c : Char) : Bool := c = ' ' || c = '\t'

/-- A text without the blanks at its two ends. -/
def trim (t : List Char) : List Char := ((t.dropWhile isBlank).reverse.dropWhile isBlank).reverse

/-- The value of a digit character in a base up to 16; the letters of either case (log entry 9). -/
def digitValue (base : Nat) (c : Char) : Option Nat :=
  let n := c.toNat
  let d := if 0x30 ≤ n ∧ n ≤ 0x39 then n - 0x30
    else if 0x61 ≤ n ∧ n ≤ 0x66 then n - 0x61 + 10
    else if 0x41 ≤ n ∧ n ≤ 0x46 then n - 0x41 + 10
    else base
  if d < base then some d else none

/-- A numeral in a base, most significant digit first; none for an empty one or a foreign character. -/
def readDigits (base : Nat) (t : List Char) : Option Nat :=
  if t = [] then none
  else t.foldl (fun acc c => acc.bind (fun n => (digitValue base c).map (fun d => base * n + d))) (some 0)

/-- An operand: "a decimal number, a hexadecimal number with prefix `0x`, or a binary number with prefix `0b`" (R79). -/
def readNumber : List Char → Option Nat
  | '0' :: 'x' :: t => readDigits 16 t
  | '0' :: 'b' :: t => readDigits 2 t
  | t => readDigits 10 t

/-- The operand of `.word`: `0x` and eight hexadecimal digits (R79). -/
def readRawWord : List Char → Option Nat
  | '0' :: 'x' :: t => if t.length = 8 then readDigits 16 t else none
  | _ => none

/-- A code string between double quotes, each character `0` or `1` (R80). -/
def readCode : List Char → Option Bits
  | '"' :: t =>
    if t.getLast? = some '"' then
      t.dropLast.mapM (fun c => if c = '0' then some false else if c = '1' then some true else none)
    else none
  | _ => none

/-- The operands of a line, separated by commas; no operand where nothing is written. -/
def splitOperands (t : List Char) : List (List Char) :=
  if trim t = [] then [] else (t.splitOn ',').map trim

/-- A line from its mnemonic and its operands (R79, R80); none is an assembly error. -/
def readLine (mnemonic : String) (ops : List (List Char)) : Option AsmLine :=
  match mnemonic, ops with
  | "ctclr", [] => some .ctclr
  | "ctsel", [s] => (readNumber s).map .ctsel
  | "ctbit", [b] => (readNumber b).map .ctbit
  | "bsbeg", [] => some .bsbeg
  | "bssym", [v] => (readNumber v).map .bssym
  | "bsend", [] => some .bsend
  | "twbeg", [n] => (readNumber n).map .twbeg
  | "twbyte", [v] => (readNumber v).map .twbyte
  | ".word", [w] => (readRawWord w).map .word
  | "ctcode", [s, c] => (readNumber s).bind (fun s => (readCode c).map (.ctcode s))
  | "bspack", vs => (vs.mapM readNumber).map .bspack
  | "twpack", vs => (vs.mapM readNumber).map .twpack
  | _, _ => none

/-- One line of text: a `#` starts a comment that runs to the end of the line; a line with nothing but blanks or a comment
assembles to no word (R79, log entry 9). -/
def assembleLine (text : List Char) : Option (List Word) :=
  let t := trim (text.takeWhile (· ≠ '#'))
  if t = [] then some []
  else
    (readLine (String.ofList (t.takeWhile (fun c => !isBlank c))) (splitOperands (t.dropWhile (fun c => !isBlank c)))).bind assemble

/-- A program, one command per line (R79). -/
def assembleProgram (lines : List (List Char)) : Option (List Word) :=
  (lines.mapM assembleLine).map List.flatten

end Sys2Proof.Machine
end

