-- ==== Sys2Proof/Safety.lean ====
section
/-! DEFINITION. The terms the claims use: running a word sequence, admission (60_exceptions.md R143), the end of a run and
a valid result (70_reset_and_hazards.md R177, R183), the invariants of 10_state.md R45 and R46, and what a unit sees of a
word sequence (30_encoding.md R72). -/

namespace Sys2Proof.Machine

/-- The host presents the words of `ws`, in order, and nothing else. -/
def present (ws : List Word) (s : State) : State := { s with inputs := ws.map .command }

/-- The block carries out the words of `ws` one after another, one step a word. -/
def runWords (ws : List Word) (s : State) : Host.Outcome State Fault Refusal :=
  Host.Core.run Sys2Proof.core ws.length (present ws s)

/-- The words of `ws` a unit is named by, in order (30_encoding.md R72). -/
def wordsFor (u : UnitId) (ws : List Word) : List Word := ws.filter (fun w => decide (unitOf w = u))

/-- The admission table of 60_exceptions.md R143. -/
def admitted (s : State) : Instr → Bool
  | .ctclr => decide (s.bs.phase ≠ .run)
  | .ctsel _ => decide (s.bs.phase ≠ .run)
  | .ctbit _ => decide (s.bs.phase ≠ .run ∧ s.bs.selV = true ∧ (s.bs.ct.lookup s.bs.selI).length < s.config.codeMax)
  | .bsbeg => decide (s.bs.phase ≠ .run)
  | .bssym _ => decide (s.bs.phase = .run)
  | .bsend => decide (s.bs.phase = .run)
  | .twbeg _ => decide (s.tw.phase ≠ .run)
  | .twbyte _ => decide (s.tw.phase = .run)

/-- How a unit's run stands (70_reset_and_hazards.md R183): not begun, not ended, ended well, ended badly. -/
def endedWell (p : Phase) : Bool := decide (p = .done)
def endedBadly (p : Phase) : Bool := decide (p = .fault)
def notEnded (p : Phase) : Bool := decide (p = .run)

/-- BS.OUT and BS.PAD are a result only in phase DONE with ILL = 0 (R177). -/
def bspResultValid (s : State) : Bool := endedWell s.bs.phase && !s.bs.ill

/-- TW.WOUT and TW.TXT are a result only in phase DONE with ILL = 0 (R177). -/
def twpResultValid (s : State) : Bool := endedWell s.tw.phase && !s.tw.ill

/-- The bits BS.ACC holds: its low BS.CNT bits, the oldest first (10_state.md R24). -/
def heldBits (u : Bsp) : Bits :=
  (List.range u.cnt.toNat).map (fun i => u.acc.getLsbD (u.cnt.toNat - 1 - i))

/-- Every entry is within CODE_MAX (10_state.md R22, R45 item 7). -/
abbrev CodeTable.wf (t : CodeTable) (codeMax : Nat) : Prop := ∀ v : Byte, (t.lookup v).length ≤ codeMax

/-- The literal before its closing brace (42_tree_word_packer.md R125). -/
def openLiteral (ws : List Word16) : List Byte := [openBrace] ++ values ws

/-- The invariants of 10_state.md R45 that speak of one state: items 1 to 4, the last sentence of item 5, item 7. -/
structure BspInv (codeMax : Nat) (u : Bsp) : Prop where
  /-- Item 1. -/
  acc_lt : u.acc.toNat < 2 ^ u.cnt.toNat
  /-- Item 2. -/
  fault_iff : u.phase = .fault ↔ u.cause = .missingCodeEntry
  /-- Item 2. -/
  cause_none : u.phase ≠ .fault → u.cause = .none
  /-- Item 3. -/
  idle : u.phase = .idle → u.cnt = 0 ∧ u.pad = 0 ∧ u.fsym = 0 ∧ u.out = []
  /-- Item 4. -/
  done : u.phase = .done → u.cnt = 0 ∧ u.acc = 0 ∧ u.cause = .none
  /-- Item 5, "In these phases `BS.PAD = 0`". -/
  pad_zero : u.phase = .run ∨ u.phase = .fault → u.pad = 0
  /-- Item 7. -/
  table : u.ct.wf codeMax

/-- The invariants of 10_state.md R46 that speak of one state, items 1 to 5; in phase RUN the text is the open literal of
the words so far (42_tree_word_packer.md R125), which begins with the opening brace and holds no closing one. -/
structure TwpInv (u : Twp) : Prop where
  /-- Item 1. -/
  fault_iff : u.phase = .fault ↔ u.cause = .malformedTreeLength
  /-- Item 1. -/
  cause_none : u.phase ≠ .fault → u.cause = .none
  /-- Item 2. -/
  run : u.phase = .run →
    1 ≤ u.rem.toNat ∧ (u.rem.toNat % 2 = 0 ↔ u.haveLow = false) ∧ u.txt = openLiteral u.wout ∧
      (u.sep = true ↔ 1 ≤ u.wout.length)
  /-- Item 3. -/
  done : u.phase = .done → u.rem = 0 ∧ u.haveLow = false ∧ u.txt = literal u.wout
  /-- Item 4. -/
  fault : u.phase = .fault → u.rem.toNat % 2 = 1 ∧ u.wout = [] ∧ u.txt = [] ∧ u.haveLow = false ∧ u.sep = false
  /-- Item 5 (TW.ILL is a flag of section 4, not a register of section 5: log entry 10). -/
  idle : u.phase = .idle →
    u.low = 0 ∧ u.haveLow = false ∧ u.rem = 0 ∧ u.sep = false ∧ u.cause = .none ∧ u.wout = [] ∧ u.txt = []

/-- The whole block's invariant. -/
structure State.Inv (s : State) : Prop where
  /-- CODE_MAX ≥ 1 (00_scope.md R6). -/
  config : s.config.Legal
  bs : BspInv s.config.codeMax s.bs
  tw : TwpInv s.tw

end Sys2Proof.Machine
end

