-- ==== Sys2Proof/Certificates/Slice0/Obligations.lean ====
section
/-! DEFINITION. The statements for the provers. Each names the rule of spec/ it formalises. A statement about `exec` is
about a command by itself; a statement about `step` or `runWords` speaks of words the host presents, which the model
holds in `State.inputs` (the model's own convention, log entry 1). -/

open Sys2Proof Sys2Proof.Machine

/-! ### Encoding (30_encoding.md) -/

/-- R77, the decoder written over natural numbers (op = W[31:24], arg = W[23:0], a zero upper part of arg as a bound on
it), and `encode` as its inverse in both directions. -/
def Obligations.DecoderIsTheInverseOfTheEncoder : Prop :=
  (∀ w : Word,
    decode w =
      (let op := w.toNat / 2 ^ 24
       let arg := w.toNat % 2 ^ 24
       if op = 0x01 ∧ arg = 0 then .command .ctclr
       else if op = 0x02 ∧ arg < 256 then .command (.ctsel (BitVec.ofNat 8 arg))
       else if op = 0x03 ∧ arg < 2 then .command (.ctbit (decide (arg = 1)))
       else if op = 0x04 ∧ arg = 0 then .command .bsbeg
       else if op = 0x05 ∧ arg < 256 then .command (.bssym (BitVec.ofNat 8 arg))
       else if op = 0x06 ∧ arg = 0 then .command .bsend
       else if op = 0x81 then .command (.twbeg (BitVec.ofNat 24 arg))
       else if op = 0x82 ∧ arg < 256 then .command (.twbyte (BitVec.ofNat 8 arg))
       else .reserved (if 128 ≤ op then .twp else .bsp))) ∧
  (∀ i : Instr, decode (encode i) = .command i) ∧
  (∀ (w : Word) (i : Instr), decode w = .command i → encode i = w)

/-- R73, the rows' match and mask: a word is the command of a row if and only if `W & mask = match`, and R74, the operands
are the low bits of the word. -/
def Obligations.RowsAreTheirMatchAndMask : Prop :=
  ∀ w : Word,
    (decode w = .command .ctclr ↔ w &&& 0xFFFFFFFF#32 = 0x01000000#32) ∧
    ((∃ s, decode w = .command (.ctsel s)) ↔ w &&& 0xFFFFFF00#32 = 0x02000000#32) ∧
    ((∃ b, decode w = .command (.ctbit b)) ↔ w &&& 0xFFFFFFFE#32 = 0x03000000#32) ∧
    (decode w = .command .bsbeg ↔ w &&& 0xFFFFFFFF#32 = 0x04000000#32) ∧
    ((∃ v, decode w = .command (.bssym v)) ↔ w &&& 0xFFFFFF00#32 = 0x05000000#32) ∧
    (decode w = .command .bsend ↔ w &&& 0xFFFFFFFF#32 = 0x06000000#32) ∧
    ((∃ n, decode w = .command (.twbeg n)) ↔ w &&& 0xFF000000#32 = 0x81000000#32) ∧
    ((∃ v, decode w = .command (.twbyte v)) ↔ w &&& 0xFFFFFF00#32 = 0x82000000#32) ∧
    (∀ s, decode w = .command (.ctsel s) → s.toNat = w.toNat % 2 ^ 8) ∧
    (∀ b, decode w = .command (.ctbit b) → b.toNat = w.toNat % 2) ∧
    (∀ v, decode w = .command (.bssym v) → v.toNat = w.toNat % 2 ^ 8) ∧
    (∀ n, decode w = .command (.twbeg n) → n.toNat = w.toNat % 2 ^ 24) ∧
    (∀ v, decode w = .command (.twbyte v) → v.toNat = w.toNat % 2 ^ 8)

/-- R73, "The number of executable words is 1 + 256 + 2 + 1 + 256 + 1 + 2^24 + 256 = 16,777,989". -/
def Obligations.ExecutableWordsAreCounted : Prop :=
  Nat.card { w : Word // ∃ i, decode w = .command i } = 16777989

/-- R75, R76: a word is reserved exactly when it is the word of no command; the whole opcodes R76 lists are reserved with
any ARG, and so are the all-zero and the all-one word; the unit that refuses it is the one bit 31 names. -/
def Obligations.ReservedWordsAreTheRest : Prop :=
  (∀ w : Word, (∃ u, decode w = .reserved u) ↔ ∀ i, encode i ≠ w) ∧
  (∀ (w : Word) (u : UnitId), decode w = .reserved u → (u = .twp ↔ w.getLsbD 31 = true)) ∧
  (∀ w : Word,
    (w.toNat / 2 ^ 24 = 0 ∨ (7 ≤ w.toNat / 2 ^ 24 ∧ w.toNat / 2 ^ 24 ≤ 0x80) ∨ 0x83 ≤ w.toNat / 2 ^ 24) →
      ∃ u, decode w = .reserved u) ∧
  decode 0x00000000#32 = .reserved .bsp ∧ decode 0xFFFFFFFF#32 = .reserved .twp

/-- Words written out from R73's encodings (95_test_vectors.md V1 to V9), a sanity statement. -/
def Obligations.SampleWordsDecodeAsTheTableSays : Prop :=
  decode 0x01000000#32 = .command .ctclr ∧ decode 0x01000001#32 = .reserved .bsp ∧
  decode 0x020000FF#32 = .command (.ctsel 255#8) ∧ decode 0x03000001#32 = .command (.ctbit true) ∧
  decode 0x05000141#32 = .reserved .bsp ∧ decode 0x81FFFFFF#32 = .command (.twbeg 16777215#24) ∧
  decode 0x82010000#32 = .reserved .twp ∧ decode 0x820000AB#32 = .command (.twbyte 171#8)

/-! ### The step, reset, refusal -/

/-- R60, R147: when the word the host presents next decodes to a command, the step is that command's meaning in the state
without that word; nothing else is added. -/
def Obligations.StepRunsTheDecodedCommand : Prop :=
  ∀ (s : State) (w : Word) (rest : List HostInput) (i : Instr),
    s.inputs = .command w :: rest → decode w = .command i →
      step s = exec i { s with inputs := rest }

/-- R60, R144, R145, R181: every step answers a next state, so no step stops with a fault (TailPackingDegenerate among
them) or a refusal; with an input presented the step takes exactly that input; CODE_MAX never changes; with none it changes
nothing (log entry 3). -/
def Obligations.EveryStepCompletesAndTakesOneInput : Prop :=
  (∀ (s : State) (x : HostInput) (rest : List HostInput), s.inputs = x :: rest →
    ∃ t, step s = .next t ∧ t.inputs = rest ∧ t.config = s.config) ∧
  (∀ s : State, s.inputs = [] → step s = .next s)

/-- R44, R171: every piece of state after reset. -/
def Obligations.ResetStateHasTheListedValues : Prop :=
  (∀ v : Byte, State.reset.bs.ct.lookup v = []) ∧
  State.reset.bs.selV = false ∧ State.reset.bs.selI = 0#8 ∧
  State.reset.bs.phase = .idle ∧ State.reset.bs.acc = 0#8 ∧ State.reset.bs.cnt = 0#3 ∧ State.reset.bs.pad = 0#3 ∧
  State.reset.bs.fsym = 0#8 ∧ State.reset.bs.cause.code = 0#3 ∧ State.reset.bs.ill = false ∧ State.reset.bs.out = [] ∧
  State.reset.tw.phase = .idle ∧ State.reset.tw.low = 0#8 ∧ State.reset.tw.haveLow = false ∧ State.reset.tw.rem = 0#24 ∧
  State.reset.tw.sep = false ∧ State.reset.tw.cause.code = 0#3 ∧ State.reset.tw.ill = false ∧
  State.reset.tw.wout = [] ∧ State.reset.tw.txt = []

/-- R170: applying reset gives the reset state of both units whatever the state was, and a word presented meanwhile is not
executed. That CODE_MAX and the later inputs stay is the model's (log entry 5). -/
def Obligations.ResetInputReachesEverything : Prop :=
  ∀ (s : State) (presented : Option Word) (rest : List HostInput), s.inputs = .reset presented :: rest →
    step s = .next { bs := State.reset.bs, tw := State.reset.tw, config := s.config, inputs := rest }

/-- R143, R144, R147: a word that is reserved, or decodes to a command the admission table does not admit, sets the ILL bit
of the unit that bit 31 of the word names and changes nothing else. -/
def Obligations.RefusalSetsOnlyTheUnitsIll : Prop :=
  ∀ (s : State) (w : Word) (rest : List HostInput), s.inputs = .command w :: rest →
    (∀ i, decode w = .command i → admitted s i = false) →
      step s = .next (if w.getLsbD 31 then { s with tw := { s.tw with ill := true }, inputs := rest }
        else { s with bs := { s.bs with ill := true }, inputs := rest })

/-- R143: an admitted command leaves both ILL bits as they are, and whether it is admitted does not depend on either ILL
bit or on the other unit. -/
def Obligations.AdmittedCommandsLeaveIllAlone : Prop :=
  ∀ (i : Instr) (s t : State), admitted s i = true → exec i s = .next t →
    t.bs.ill = s.bs.ill ∧ t.tw.ill = s.tw.ill ∧
    (∀ a b : Bool, admitted { s with bs := { s.bs with ill := a }, tw := { s.tw with ill := b } } i = true) ∧
    (i.unit = .bsp → ∀ u : Twp, admitted { s with tw := u } i = true) ∧
    (i.unit = .twp → ∀ u : Bsp, admitted { s with bs := u } i = true)

/-- R32, R144: after any word sequence, an ILL bit that is 0 at the end was 0 throughout and every word of its unit was a
command that was admitted when its turn came ("a claim about a command sequence can take `ILL = 0` at the end as the
evidence that every word was executed"). -/
def Obligations.ClearIllMeansEveryWordWasExecuted : Prop :=
  ∀ (pre post : List Word) (w : Word) (s t : State), runWords (pre ++ w :: post) s = .next t →
    ∃ m, runWords pre s = .next m ∧
      (unitOf w = .bsp → t.bs.ill = false → m.bs.ill = false ∧ ∃ i, decode w = .command i ∧ admitted m i = true) ∧
      (unitOf w = .twp → t.tw.ill = false → m.tw.ill = false ∧ ∃ i, decode w = .command i ∧ admitted m i = true)

/-! ### Code table commands (40_code_table.md) -/

/-- R91. -/
def Obligations.CtclrEmptiesTheTable : Prop :=
  encode .ctclr = 0x01000000#32 ∧
  ∀ s : State,
    (s.bs.phase ≠ .run → ∃ ct : CodeTable, (∀ v, ct.lookup v = []) ∧
      exec .ctclr s = .next { s with bs := { s.bs with ct := ct, selV := false, selI := 0#8 } }) ∧
    (s.bs.phase = .run → exec .ctclr s = .next { s with bs := { s.bs with ill := true } })

/-- R92. -/
def Obligations.CtselEmptiesAndSelectsOneEntry : Prop :=
  ∀ e : Byte, encode (.ctsel e) = 0x02000000#32 ||| e.zeroExtend 32 ∧
  ∀ s : State,
    (s.bs.phase ≠ .run → ∃ ct : CodeTable, ct.lookup e = [] ∧ (∀ v, v ≠ e → ct.lookup v = s.bs.ct.lookup v) ∧
      exec (.ctsel e) s = .next { s with bs := { s.bs with ct := ct, selV := true, selI := e } }) ∧
    (s.bs.phase = .run → exec (.ctsel e) s = .next { s with bs := { s.bs with ill := true } })

/-- R93. -/
def Obligations.CtbitAppendsOneDigit : Prop :=
  ∀ b : Bool, encode (.ctbit b) = 0x03000000#32 ||| (if b then 1#32 else 0#32) ∧
  ∀ s : State,
    (s.bs.phase ≠ .run → s.bs.selV = true → (s.bs.ct.lookup s.bs.selI).length < s.config.codeMax →
      ∃ ct : CodeTable, ct.lookup s.bs.selI = s.bs.ct.lookup s.bs.selI ++ [b] ∧
        (∀ v, v ≠ s.bs.selI → ct.lookup v = s.bs.ct.lookup v) ∧
        exec (.ctbit b) s = .next { s with bs := { s.bs with ct := ct } }) ∧
    (s.bs.phase = .run ∨ s.bs.selV = false ∨ s.config.codeMax ≤ (s.bs.ct.lookup s.bs.selI).length →
      exec (.ctbit b) s = .next { s with bs := { s.bs with ill := true } })

/-- R90, R45 item 6: the table and SEL change only by a reset or by a code table command outside phase RUN; within a run
the table stays as it is. -/
def Obligations.TableChangesOnlyOutsideARun : Prop :=
  ∀ (s t : State) (x : HostInput) (rest : List HostInput), s.inputs = x :: rest → step s = .next t →
    (t.bs.ct ≠ s.bs.ct ∨ t.bs.selV ≠ s.bs.selV ∨ t.bs.selI ≠ s.bs.selI) →
      (∃ p, x = .reset p) ∨
      (s.bs.phase ≠ .run ∧ ∃ w i, x = .command w ∧ decode w = .command i ∧
        (i = .ctclr ∨ (∃ e, i = .ctsel e) ∨ ∃ b, i = .ctbit b))

/-- The frame of CTCLR, CTSEL and CTBIT (R59, R91, R92, R93): they leave every register and stream of the run, the whole
other unit, CODE_MAX and the later inputs as they are; CTCLR changes no entry but to empty it, CTSEL no entry but its
operand's, CTBIT no entry but the selected one, and CTBIT leaves SEL; BS.ILL changes only where the command is refused, and
then nothing else does. -/
def Obligations.CodeTableCommandsFrame : Prop :=
  ∀ (i : Instr) (s t : State), (i = .ctclr ∨ (∃ e, i = .ctsel e) ∨ ∃ b, i = .ctbit b) → exec i s = .next t →
    t.bs.phase = s.bs.phase ∧ t.bs.acc = s.bs.acc ∧ t.bs.cnt = s.bs.cnt ∧ t.bs.pad = s.bs.pad ∧
    t.bs.cause = s.bs.cause ∧ t.bs.fsym = s.bs.fsym ∧ t.bs.out = s.bs.out ∧
    t.tw = s.tw ∧ t.config = s.config ∧ t.inputs = s.inputs ∧
    (admitted s i = true → t.bs.ill = s.bs.ill) ∧
    (admitted s i = false → t.bs = { s.bs with ill := true }) ∧
    (i = .ctclr → ∀ v, t.bs.ct.lookup v = s.bs.ct.lookup v ∨ t.bs.ct.lookup v = []) ∧
    (∀ e, i = .ctsel e → ∀ v, v ≠ e → t.bs.ct.lookup v = s.bs.ct.lookup v) ∧
    (∀ b, i = .ctbit b → t.bs.selV = s.bs.selV ∧ t.bs.selI = s.bs.selI ∧
      ∀ v, v ≠ s.bs.selI → t.bs.ct.lookup v = s.bs.ct.lookup v)

/-- R94 with R92 and R93: loading (key, code) pairs outside a run, each code of length 1 to CODE_MAX, executes every word and
leaves each key with the code of its last pair and every other entry as it was; no other register but SEL changes. -/
def Obligations.LoadedTableHoldsTheCodes : Prop :=
  ∀ (s : State) (pairs : List (Byte × Bits)), s.bs.phase ≠ .run →
    (∀ p ∈ pairs, codeMin ≤ p.2.length ∧ p.2.length ≤ s.config.codeMax) →
      ∃ t, runWords (wordsOf (loadTable pairs)) s = .next t ∧
        (∀ v, t.bs.ct.lookup v =
          ((pairs.reverse.find? (fun p => decide (p.1 = v))).map (fun p => p.2)).getD (s.bs.ct.lookup v)) ∧
        t = { s with
          bs := { s.bs with ct := t.bs.ct, selV := t.bs.selV, selI := t.bs.selI }
          inputs := [] }

/-! ### Bitstream packer commands (41_bitstream_packer.md) -/

/-- R103, its last part being that no other command takes BSP out of phase DONE or FAULT. -/
def Obligations.BsbegClearsTheRunAndBegins : Prop :=
  encode .bsbeg = 0x04000000#32 ∧
  ∀ s : State,
    (s.bs.phase ≠ .run →
      exec .bsbeg s = .next { s with bs := { s.bs with
        acc := 0#8, cnt := 0#3, pad := 0#3, fsym := 0#8, cause := .none, out := [], phase := .run } }) ∧
    (s.bs.phase = .run → exec .bsbeg s = .next { s with bs := { s.bs with ill := true } }) ∧
    (s.bs.phase = .done ∨ s.bs.phase = .fault → ∀ (i : Instr) (t : State), i ≠ .bsbeg → exec i s = .next t →
      t.bs.phase = s.bs.phase)

/-- R104, R102: in phase RUN a BSSYM of a present byte value appends its code to the bits held, most significant bit first:
it emits the full groups of the held bits followed by the code, `(BS.CNT + len(c)) div 8` bytes, holds the rest, and changes
nothing else; if the bits of BS.ACC above the held ones were 0 they stay 0. A BSSYM of an absent one takes the fault entry,
and in another phase BSSYM is refused. -/
def Obligations.BssymAppendsTheCode : Prop :=
  ∀ v : Byte, encode (.bssym v) = 0x05000000#32 ||| v.zeroExtend 32 ∧
  ∀ s : State,
    (s.bs.phase = .run → s.bs.ct.lookup v ≠ [] → ∃ (acc : Byte) (cnt : BitVec 3) (out : List Byte),
      exec (.bssym v) s = .next { s with bs := { s.bs with acc := acc, cnt := cnt, out := out } } ∧
      out = s.bs.out ++ fullGroups (heldBits s.bs ++ s.bs.ct.lookup v) ∧
      out.length = s.bs.out.length + (s.bs.cnt.toNat + (s.bs.ct.lookup v).length) / 8 ∧
      cnt.toNat = (s.bs.cnt.toNat + (s.bs.ct.lookup v).length) % 8 ∧
      heldBits { s.bs with acc := acc, cnt := cnt } = tailBits (heldBits s.bs ++ s.bs.ct.lookup v) ∧
      (s.bs.acc.toNat < 2 ^ s.bs.cnt.toNat → acc.toNat < 2 ^ cnt.toNat)) ∧
    (s.bs.phase = .run → s.bs.ct.lookup v = [] →
      exec (.bssym v) s = .next { s with bs := { s.bs with cause := .missingCodeEntry, fsym := v, phase := .fault } }) ∧
    (s.bs.phase ≠ .run → exec (.bssym v) s = .next { s with bs := { s.bs with ill := true } })

/-- R141, R147, R150, the fault entry as the host reads it: a word that decodes to a BSSYM of an absent byte value, presented in
phase RUN, leaves BS_STAT with PHASE = 3, CAUSE = 2, FSYM = v, and CNT, PAD, ACC and ILL as they were; BS.OUT, the table, SEL
and TWP are as they were. In another phase the same word is refused whether or not the entry is present, and no fault is
recorded. -/
def Obligations.BssymOfAnAbsentByteTakesTheFaultEntry : Prop :=
  ∀ (s : State) (w : Word) (rest : List HostInput) (v : Byte), s.inputs = .command w :: rest →
    decode w = .command (.bssym v) → (s.bs.phase = .run → s.bs.ct.lookup v = []) →
    ∃ t a, step s = .next t ∧ readStatus 0 t = some a ∧
      t.bs.out = s.bs.out ∧ t.bs.ct = s.bs.ct ∧ t.bs.selV = s.bs.selV ∧ t.bs.selI = s.bs.selI ∧ t.tw = s.tw ∧
      (s.bs.phase = .run →
        a.extractLsb' 0 2 = 3#2 ∧ a.getLsbD 2 = s.bs.ill ∧ a.extractLsb' 3 3 = 2#3 ∧ a.extractLsb' 6 3 = s.bs.cnt ∧
        a.extractLsb' 9 3 = s.bs.pad ∧ a.extractLsb' 12 8 = s.bs.acc ∧ a.extractLsb' 20 8 = v) ∧
      (s.bs.phase ≠ .run → a = bsStat s ||| 4#32)

/-- R105, R106: BSEND in phase RUN emits the held bits padded on the right with zeros as one byte if, and only if, a bit is
held, writes the pad length, clears the accumulator and ends the run; in another phase it is refused. -/
def Obligations.BsendFlushesTheTail : Prop :=
  encode .bsend = 0x06000000#32 ∧
  ∀ s : State,
    (s.bs.phase = .run → s.bs.cnt = 0#3 →
      exec .bsend s = .next { s with bs := { s.bs with pad := 0#3, phase := .done } }) ∧
    (s.bs.phase = .run → s.bs.cnt ≠ 0#3 → ∃ pad : BitVec 3, pad.toNat = 8 - s.bs.cnt.toNat ∧
      exec .bsend s = .next { s with bs := { s.bs with
        out := s.bs.out ++ [byteOfBits (pad8 (heldBits s.bs))], acc := 0#8, cnt := 0#3, pad := pad, phase := .done } }) ∧
    (s.bs.phase ≠ .run → exec .bsend s = .next { s with bs := { s.bs with ill := true } })

/-- The frame of BSBEG, BSSYM and BSEND (R59, R103, R104, R105): they leave the code table, SEL, the whole other unit,
CODE_MAX and the later inputs as they are; BSSYM leaves BS.PAD, and of a present byte value BS.PHASE, BS.CAUSE and BS.FSYM
too, of an absent one BS.ACC, BS.CNT and BS.OUT; BSEND leaves BS.FSYM and BS.CAUSE; BSSYM and BSEND never change a byte
already emitted; BS.ILL changes only where the command is refused, and then nothing else does. -/
def Obligations.BitstreamPackerCommandsFrame : Prop :=
  ∀ (i : Instr) (s t : State), (i = .bsbeg ∨ (∃ v, i = .bssym v) ∨ i = .bsend) → exec i s = .next t →
    t.bs.ct = s.bs.ct ∧ t.bs.selV = s.bs.selV ∧ t.bs.selI = s.bs.selI ∧
    t.tw = s.tw ∧ t.config = s.config ∧ t.inputs = s.inputs ∧
    (admitted s i = true → t.bs.ill = s.bs.ill) ∧
    (admitted s i = false → t.bs = { s.bs with ill := true }) ∧
    (∀ v, i = .bssym v → t.bs.pad = s.bs.pad ∧ s.bs.out <+: t.bs.out ∧
      (s.bs.ct.lookup v ≠ [] → t.bs.phase = s.bs.phase ∧ t.bs.cause = s.bs.cause ∧ t.bs.fsym = s.bs.fsym) ∧
      (s.bs.ct.lookup v = [] → t.bs.acc = s.bs.acc ∧ t.bs.cnt = s.bs.cnt ∧ t.bs.out = s.bs.out)) ∧
    (i = .bsend → t.bs.fsym = s.bs.fsym ∧ t.bs.cause = s.bs.cause ∧ s.bs.out <+: t.bs.out)

/-- R110, the phase after each word BSP is named by, in every phase before. -/
def Obligations.BspPhaseTransitions : Prop :=
  ∀ (s : State) (w : Word) (rest : List HostInput), s.inputs = .command w :: rest → w.getLsbD 31 = false →
    ∃ t, step s = .next t ∧
      (∀ i, decode w = .command i → (i = .ctclr ∨ (∃ e, i = .ctsel e) ∨ ∃ b, i = .ctbit b) → t.bs.phase = s.bs.phase) ∧
      (decode w = .command .bsbeg → t.bs.phase = .run) ∧
      (∀ v, decode w = .command (.bssym v) →
        (s.bs.phase = .run ∧ s.bs.ct.lookup v ≠ [] → t.bs.phase = .run) ∧
        (s.bs.phase = .run ∧ s.bs.ct.lookup v = [] → t.bs.phase = .fault) ∧
        (s.bs.phase ≠ .run → t.bs.phase = s.bs.phase)) ∧
      (decode w = .command .bsend →
        (s.bs.phase = .run → t.bs.phase = .done) ∧ (s.bs.phase ≠ .run → t.bs.phase = s.bs.phase)) ∧
      (∀ u, decode w = .reserved u → t.bs.phase = s.bs.phase) ∧
      (t.bs.ill = true ↔ s.bs.ill = true ∨ ∀ i, decode w = .command i → admitted s i = false)

/-- R152: beginning a run leaves nothing of the run before: two states that agree on the table, SEL, the ILL bit and all
that is not BSP's agree on everything after BSBEG, and likewise for TWBEG. -/
def Obligations.BeginCommandsForgetTheRunBefore : Prop :=
  (∀ s t : State, s.bs.phase ≠ .run → t.bs.phase ≠ .run →
    s.bs.ct = t.bs.ct → s.bs.selV = t.bs.selV → s.bs.selI = t.bs.selI → s.bs.ill = t.bs.ill →
    s.tw = t.tw → s.config = t.config → s.inputs = t.inputs → exec .bsbeg s = exec .bsbeg t) ∧
  (∀ (n : Count) (s t : State), s.tw.phase ≠ .run → t.tw.phase ≠ .run →
    s.tw.ill = t.tw.ill → s.bs = t.bs → s.config = t.config → s.inputs = t.inputs →
      exec (.twbeg n) s = exec (.twbeg n) t)

/-- R45 item 5, R107: after BSBEG and the BSSYMs of a covered input, whatever words of the other unit stand between, the
run is in progress with the full groups of the code string emitted and its last bits held. -/
def Obligations.RunInProgressHoldsTheCodeString : Prop :=
  ∀ (ws : List Word) (input : List Byte) (s : State) (b : Bits), s.bs.phase ≠ .run →
    wordsFor .bsp ws = wordsOf (.bsbeg :: input.map .bssym) → bitseq s.bs.ct input = some b →
      ∃ t, runWords ws s = .next t ∧ t.bs.phase = .run ∧ t.bs.out = fullGroups b ∧ heldBits t.bs = tailBits b ∧
        t.bs.cnt.toNat = b.length % 8 ∧ t.bs.acc.toNat = natOfBits (tailBits b) ∧ t.bs.pad = 0#3 ∧
        t.bs.ct = s.bs.ct ∧ t.bs.ill = s.bs.ill

/-- R108, first case: a run whose bytes all have a code ends in phase DONE with `BS.OUT = pack(T, input)`, whatever words of
the other unit stand between. -/
def Obligations.BspRunPacksTheInput : Prop :=
  ∀ (ws : List Word) (input : List Byte) (s : State) (b : Bits), s.bs.phase ≠ .run →
    wordsFor .bsp ws = wordsOf (bspack input) → bitseq s.bs.ct input = some b →
      ∃ t, runWords ws s = .next t ∧ t.bs.phase = .done ∧ some t.bs.out = pack s.bs.ct input ∧
        t.bs.out.length = (b.length + 7) / 8 ∧ t.bs.pad.toNat = padlen b.length ∧
        8 * t.bs.out.length = b.length + t.bs.pad.toNat ∧
        t.bs.acc = 0#8 ∧ t.bs.cnt = 0#3 ∧ t.bs.cause = .none ∧ t.bs.ill = s.bs.ill ∧ t.bs.ct = s.bs.ct

/-- R108, second case: at the first byte without a code the run is in phase FAULT with the full groups of the code string so
far, the held bits not flushed; every later BSSYM and the BSEND are refused, set BS.ILL and change nothing else. -/
def Obligations.BspRunFaultsAtTheFirstAbsentByte : Prop :=
  ∀ (ws : List Word) (before after : List Byte) (v : Byte) (s : State) (b : Bits), s.bs.phase ≠ .run →
    wordsFor .bsp ws = wordsOf (bspack (before ++ v :: after)) →
    bitseq s.bs.ct before = some b → s.bs.ct.lookup v = [] →
      ∃ t, runWords ws s = .next t ∧ t.bs.phase = .fault ∧ t.bs.cause = .missingCodeEntry ∧ t.bs.fsym = v ∧
        t.bs.out = fullGroups b ∧ heldBits t.bs = tailBits b ∧ t.bs.cnt.toNat = b.length % 8 ∧ t.bs.pad = 0#3 ∧
        t.bs.ct = s.bs.ct ∧ t.bs.ill = true

/-- R109, the document's property: unpacking BS.OUT most significant bit first and discarding the last BS.PAD bits gives
back the code string; the discarded bits are all 0. -/
def Obligations.UnpackingGivesBackTheCodeString : Prop :=
  ∀ (ws : List Word) (input : List Byte) (s : State) (b : Bits), s.bs.phase ≠ .run →
    wordsFor .bsp ws = wordsOf (bspack input) → bitseq s.bs.ct input = some b →
      ∃ t, runWords ws s = .next t ∧ t.bs.phase = .done ∧
        t.bs.out.flatMap bitsOfByte = b ++ List.replicate t.bs.pad.toNat false

/-- R172, R177: from a state outside a run with BS.ILL = 0, the host's order (clear the table, load the codes, pack) ends
with a valid result: the packed concatenation, in input order, of the code each byte's last pair gave. -/
def Obligations.HostOrderGivesTheResult : Prop :=
  ∀ (s : State) (pairs : List (Byte × Bits)) (input : List Byte), s.bs.phase ≠ .run → s.bs.ill = false →
    (∀ p ∈ pairs, codeMin ≤ p.2.length ∧ p.2.length ≤ s.config.codeMax) →
    (∀ v ∈ input, ∃ p ∈ pairs, p.1 = v) →
      ∃ t, runWords (wordsOf (.ctclr :: loadTable pairs ++ bspack input)) s = .next t ∧
        bspResultValid t = true ∧
        t.bs.out = packed (input.flatMap (fun v =>
          ((pairs.reverse.find? (fun p => decide (p.1 = v))).map (fun p => p.2)).getD []))

/-! ### Tree word packer commands (42_tree_word_packer.md) -/

/-- R121: TWBEG outside phase RUN clears the unit and declares the count; an odd count takes the fault entry (R142, R150)
before any output, an even one opens the literal, and 0 closes it at once. In phase RUN it is refused. -/
def Obligations.TwbegDeclaresTheBuffer : Prop :=
  ∀ n : Count, encode (.twbeg n) = 0x81000000#32 ||| n.zeroExtend 32 ∧
  ∀ s : State,
    (s.tw.phase ≠ .run → n = 0#24 →
      exec (.twbeg n) s = .next { s with tw := { s.tw with
        low := 0#8, haveLow := false, sep := false, cause := .none, wout := [], txt := [0x7B#8, 0x7D#8], rem := 0#24,
        phase := .done } }) ∧
    (s.tw.phase ≠ .run → n ≠ 0#24 → n.toNat % 2 = 0 →
      exec (.twbeg n) s = .next { s with tw := { s.tw with
        low := 0#8, haveLow := false, sep := false, cause := .none, wout := [], txt := [0x7B#8], rem := n,
        phase := .run } }) ∧
    (s.tw.phase ≠ .run → n.toNat % 2 = 1 →
      exec (.twbeg n) s = .next { s with tw := { s.tw with
        low := 0#8, haveLow := false, sep := false, cause := .malformedTreeLength, wout := [], txt := [], rem := n,
        phase := .fault } }) ∧
    (s.tw.phase = .run → exec (.twbeg n) s = .next { s with tw := { s.tw with ill := true } })

/-- R122: TWBYTE in phase RUN holds a first byte, or completes a pair: it emits the little-endian word, renders it after the
separator if a value was rendered before, and the last declared byte closes the literal and ends the run. In another phase
it is refused. -/
def Obligations.TwbyteAssemblesAndRendersPairs : Prop :=
  ∀ v : Byte, encode (.twbyte v) = 0x82000000#32 ||| v.zeroExtend 32 ∧
  ∀ s : State,
    (s.tw.phase = .run → s.tw.haveLow = false →
      exec (.twbyte v) s = .next { s with tw := { s.tw with low := v, haveLow := true, rem := s.tw.rem - 1#24 } }) ∧
    (s.tw.phase = .run → s.tw.haveLow = true → ∃ w : Word16, w.toNat = s.tw.low.toNat + 256 * v.toNat ∧
      exec (.twbyte v) s = .next { s with tw := { s.tw with
        wout := s.tw.wout ++ [w]
        txt := s.tw.txt ++ (if s.tw.sep then [0x2C#8, 0x20#8] else []) ++ dec w ++ (if s.tw.rem = 1#24 then [0x7D#8] else [])
        sep := true
        haveLow := false
        rem := s.tw.rem - 1#24
        phase := if s.tw.rem = 1#24 then .done else .run } }) ∧
    (s.tw.phase ≠ .run → exec (.twbyte v) s = .next { s with tw := { s.tw with ill := true } })

/-- The frame of TWBEG and TWBYTE (R59, R121, R122): they leave the whole bitstream packer with its code table, CODE_MAX and
the later inputs as they are; TWBYTE leaves TW.CAUSE and never changes a word or a character already emitted; it leaves
TW.LOW as it is or, with the first byte of a pair, changes neither a stream nor TW.SEP nor TW.PHASE; TW.ILL changes only
where the command is refused, and then nothing else does. -/
def Obligations.TreeWordPackerCommandsFrame : Prop :=
  ∀ (i : Instr) (s t : State), ((∃ n, i = .twbeg n) ∨ ∃ v, i = .twbyte v) → exec i s = .next t →
    t.bs = s.bs ∧ t.config = s.config ∧ t.inputs = s.inputs ∧
    (admitted s i = true → t.tw.ill = s.tw.ill) ∧
    (admitted s i = false → t.tw = { s.tw with ill := true }) ∧
    (∀ v, i = .twbyte v →
      t.tw.cause = s.tw.cause ∧ s.tw.wout <+: t.tw.wout ∧ s.tw.txt <+: t.tw.txt ∧
      (s.tw.haveLow = true → t.tw.low = s.tw.low) ∧
      (s.tw.haveLow = false → t.tw.wout = s.tw.wout ∧ t.tw.txt = s.tw.txt ∧ t.tw.sep = s.tw.sep ∧
        t.tw.phase = s.tw.phase))

/-- R127, the phase after each word TWP is named by, in every phase before. -/
def Obligations.TwpPhaseTransitions : Prop :=
  ∀ (s : State) (w : Word) (rest : List HostInput), s.inputs = .command w :: rest → w.getLsbD 31 = true →
    ∃ t, step s = .next t ∧
      (∀ n, decode w = .command (.twbeg n) →
        (s.tw.phase = .run → t.tw.phase = .run) ∧
        (s.tw.phase ≠ .run → n = 0#24 → t.tw.phase = .done) ∧
        (s.tw.phase ≠ .run → n ≠ 0#24 → n.toNat % 2 = 0 → t.tw.phase = .run) ∧
        (s.tw.phase ≠ .run → n.toNat % 2 = 1 → t.tw.phase = .fault)) ∧
      (∀ v, decode w = .command (.twbyte v) →
        (s.tw.phase = .run → t.tw.rem ≠ 0#24 → t.tw.phase = .run) ∧
        (s.tw.phase = .run → s.tw.haveLow = true → t.tw.rem = 0#24 → t.tw.phase = .done) ∧
        (s.tw.phase ≠ .run → t.tw.phase = s.tw.phase)) ∧
      (∀ u, decode w = .reserved u → t.tw.phase = s.tw.phase) ∧
      (t.tw.ill = true ↔ s.tw.ill = true ∨ ∀ i, decode w = .command i → admitted s i = false)

/-- R46 item 6, R125, R128: with fewer bytes than an even declared count the run is unfinished: the pairs so far are words,
the text is the unclosed literal of them, a prefix of every literal that goes on from it, and an odd byte waits. -/
def Obligations.UnfinishedTwpRunHoldsThePairsSoFar : Prop :=
  ∀ (ws : List Word) (n : Count) (buf : List Byte) (s : State), s.tw.phase ≠ .run → n.toNat % 2 = 0 →
    buf.length < n.toNat → wordsFor .twp ws = wordsOf (.twbeg n :: buf.map .twbyte) →
      ∃ t, runWords ws s = .next t ∧ t.tw.phase = .run ∧ t.tw.rem.toNat = n.toNat - buf.length ∧
        words (buf.take (2 * (buf.length / 2))) = some t.tw.wout ∧ t.tw.wout.length = buf.length / 2 ∧
        t.tw.haveLow = decide (buf.length % 2 = 1) ∧ (buf.length % 2 = 1 → buf.getLast? = some t.tw.low) ∧
        t.tw.txt = openLiteral t.tw.wout ∧ (∀ more, t.tw.txt <+: literal (t.tw.wout ++ more)) ∧
        t.tw.ill = s.tw.ill

/-- R126, first case: a run of an even number of bytes ends in phase DONE with the words of the buffer and the literal of
the words, whatever words of the other unit stand between. -/
def Obligations.TwpRunRendersTheBuffer : Prop :=
  ∀ (ws : List Word) (buf : List Byte) (s : State), s.tw.phase ≠ .run → buf.length % 2 = 0 → buf.length < 2 ^ 24 →
    wordsFor .twp ws = wordsOf (twpack buf) →
      ∃ t, runWords ws s = .next t ∧ t.tw.phase = .done ∧ words buf = some t.tw.wout ∧
        t.tw.wout.length = buf.length / 2 ∧
        (∀ i lo hi, buf[2 * i]? = some lo → buf[2 * i + 1]? = some hi →
          ∃ w, t.tw.wout[i]? = some w ∧ w.toNat = lo.toNat + 256 * hi.toNat) ∧
        t.tw.txt = literal t.tw.wout ∧ t.tw.rem = 0#24 ∧ t.tw.haveLow = false ∧ t.tw.cause = .none ∧
        t.tw.ill = s.tw.ill

/-- R126, second case: an odd declared length faults at TWBEG with no output, and every byte is refused. -/
def Obligations.OddTwpRunGivesNoOutput : Prop :=
  ∀ (ws : List Word) (buf : List Byte) (s : State), s.tw.phase ≠ .run → buf.length % 2 = 1 → buf.length < 2 ^ 24 →
    wordsFor .twp ws = wordsOf (twpack buf) →
      ∃ t, runWords ws s = .next t ∧ t.tw.phase = .fault ∧ t.tw.cause = .malformedTreeLength ∧
        t.tw.rem.toNat = buf.length ∧ t.tw.wout = [] ∧ t.tw.txt = [] ∧ t.tw.haveLow = false ∧ t.tw.sep = false ∧
        t.tw.ill = true

/-! ### Pure functions (00_scope.md) -/

/-- R9: `byte_of_bits(g)` is Σ g[i] · 2^(7−i), the first bit of weight 128. -/
def Obligations.ByteOfBitsWeighsTheFirstBitMost : Prop :=
  ∀ g : Bits, g.length = 8 →
    (byteOfBits g).toNat = ((List.range 8).map (fun i => (g.getD i false).toNat * 2 ^ (7 - i))).sum ∧
    bitsOfByte (byteOfBits g) = g

/-- R14, R123: a word is `lo + 256·hi`; `words` pairs the bytes, and is undefined exactly for odd length. -/
def Obligations.WordsAreLittleEndianPairs : Prop :=
  (∀ lo hi : Byte, (word lo hi).toNat = lo.toNat + 256 * hi.toNat) ∧
  (∀ buf : List Byte, words buf = none ↔ buf.length % 2 = 1) ∧
  (∀ (buf : List Byte) (ws : List Word16), words buf = some ws →
    ws.length = buf.length / 2 ∧
    ∀ i lo hi, buf[2 * i]? = some lo → buf[2 * i + 1]? = some hi → ws[i]? = some (word lo hi))

/-- R15: `dec(w)` is the decimal numeral of `w`: its digits read in base ten give `w`, it has 1 to 5 characters, each a
digit, and no leading zero but for `dec(0) = "0"`. -/
def Obligations.DecIsTheDecimalNumeral : Prop :=
  ∀ w : Word16,
    (dec w).foldl (fun n c => 10 * n + (c.toNat - 0x30)) 0 = w.toNat ∧
    1 ≤ (dec w).length ∧ (dec w).length ≤ 5 ∧
    (∀ c ∈ dec w, 0x30 ≤ c.toNat ∧ c.toNat ≤ 0x39) ∧
    ((dec w).head? = some 0x30#8 → w = 0#16) ∧
    (w = 0#16 → dec w = [0x30#8])

/-- R16, R129 (with R15): the literal is the numerals with `", "` between consecutive ones, in braces; its length is
2 + Σ len(dec(wi)) + 2·max(m − 1, 0), at most 7m for m ≥ 1. -/
def Obligations.LiteralHasTheDocumentsForm : Prop :=
  (∀ ws : List Word16, literal ws = [0x7B#8] ++ List.intercalate [0x2C#8, 0x20#8] (ws.map dec) ++ [0x7D#8]) ∧
  (∀ ws : List Word16,
    (literal ws).length = 2 + (ws.map (fun w => (dec w).length)).sum + 2 * (ws.length - 1) ∧
    (1 ≤ ws.length → (literal ws).length ≤ 7 * ws.length))

/-! ### Whole-machine rules -/

/-- R39, R40: the fields of BS_STAT and CT_SEL, PHASE with the values of R30 and CAUSE with those of R140 that can appear
there; the reserved bits read 0, both read 0 after reset. -/
def Obligations.BspStatusRegisters : Prop :=
  (∀ s : State, ∃ a c : Word, readStatus 0 s = some a ∧ readStatus 1 s = some c ∧
    (s.bs.phase = .idle → a.extractLsb' 0 2 = 0#2) ∧ (s.bs.phase = .run → a.extractLsb' 0 2 = 1#2) ∧
    (s.bs.phase = .done → a.extractLsb' 0 2 = 2#2) ∧ (s.bs.phase = .fault → a.extractLsb' 0 2 = 3#2) ∧
    a.getLsbD 2 = s.bs.ill ∧ a.extractLsb' 3 3 = s.bs.cause.code ∧
    (s.bs.cause = .none → a.extractLsb' 3 3 = 0#3) ∧ (s.bs.cause = .missingCodeEntry → a.extractLsb' 3 3 = 2#3) ∧
    a.extractLsb' 6 3 = s.bs.cnt ∧ a.extractLsb' 9 3 = s.bs.pad ∧ a.extractLsb' 12 8 = s.bs.acc ∧
    a.extractLsb' 20 8 = s.bs.fsym ∧ a.extractLsb' 28 4 = 0#4 ∧
    c.extractLsb' 0 8 = s.bs.selI ∧ c.getLsbD 8 = s.bs.selV ∧ c.extractLsb' 9 23 = 0#23) ∧
  readStatus 0 State.reset = some 0#32 ∧ readStatus 1 State.reset = some 0#32

/-- R41, R42: the fields of TW_STAT and TW_REM, PHASE with the values of R30 and CAUSE with those of R140 that can appear
there; the reserved bits read 0, both read 0 after reset, and no other status register number exists. -/
def Obligations.TwpStatusRegisters : Prop :=
  (∀ s : State, ∃ a c : Word, readStatus 8 s = some a ∧ readStatus 9 s = some c ∧
    (s.tw.phase = .idle → a.extractLsb' 0 2 = 0#2) ∧ (s.tw.phase = .run → a.extractLsb' 0 2 = 1#2) ∧
    (s.tw.phase = .done → a.extractLsb' 0 2 = 2#2) ∧ (s.tw.phase = .fault → a.extractLsb' 0 2 = 3#2) ∧
    a.getLsbD 2 = s.tw.ill ∧ a.extractLsb' 3 3 = s.tw.cause.code ∧
    (s.tw.cause = .none → a.extractLsb' 3 3 = 0#3) ∧ (s.tw.cause = .malformedTreeLength → a.extractLsb' 3 3 = 3#3) ∧
    a.getLsbD 6 = s.tw.haveLow ∧ a.getLsbD 7 = s.tw.sep ∧ a.extractLsb' 8 8 = s.tw.low ∧ a.extractLsb' 16 16 = 0#16 ∧
    c.extractLsb' 0 24 = s.tw.rem ∧ c.extractLsb' 24 8 = 0#8) ∧
  readStatus 8 State.reset = some 0#32 ∧ readStatus 9 State.reset = some 0#32 ∧
  (∀ (n : Nat) (s : State), (2 ≤ n ∧ n ≤ 7) ∨ 10 ≤ n → readStatus n s = none)

/-- R72: one word touches only the unit its bit 31 names, and what it does there depends on nothing of the other unit. -/
def Obligations.AWordTouchesOnlyItsUnit : Prop :=
  ∀ (s t : State) (w : Word) (r₁ r₂ : List HostInput),
    s.inputs = .command w :: r₁ → t.inputs = .command w :: r₂ → s.config = t.config →
      ∃ s' t', step s = .next s' ∧ step t = .next t' ∧
        (w.getLsbD 31 = false → s'.tw = s.tw ∧ (s.bs = t.bs → s'.bs = t'.bs)) ∧
        (w.getLsbD 31 = true → s'.bs = s.bs ∧ (s.tw = t.tw → s'.tw = t'.tw))

/-- R47: any interleaving of the two units' words gives each unit the same final state as its own words alone. -/
def Obligations.InterleavingLeavesEachUnitItsOwnResult : Prop :=
  ∀ (ws : List Word) (s : State),
    ∃ t b w, runWords ws s = .next t ∧ runWords (wordsFor .bsp ws) s = .next b ∧ runWords (wordsFor .twp ws) s = .next w ∧
      t.bs = b.bs ∧ t.tw = w.tw

/-- R28, R37, R38, R61: a word appends to the streams of its unit and changes nothing already emitted, unless it is the
begin command of the unit, executed. -/
def Obligations.StreamsOnlyGrowWithinARun : Prop :=
  ∀ (s t : State) (w : Word) (rest : List HostInput), s.inputs = .command w :: rest → step s = .next t →
    (s.bs.out <+: t.bs.out ∨ (decode w = .command .bsbeg ∧ s.bs.phase ≠ .run ∧ t.bs.out = [])) ∧
    ((s.tw.wout <+: t.tw.wout ∧ s.tw.txt <+: t.tw.txt) ∨
      (∃ n, decode w = .command (.twbeg n) ∧ s.tw.phase ≠ .run ∧ t.tw.wout = []))

/-- R59: what one command emits at most: BSSYM `(7 + CODE_MAX) div 8` bytes, BSEND one byte, TWBYTE one word and eight
characters, TWBEG two characters and no word. -/
def Obligations.EmissionsOfOneCommandAreBounded : Prop :=
  ∀ s t : State,
    (∀ v, exec (.bssym v) s = .next t → s.bs.ct.wf s.config.codeMax →
      t.bs.out.length ≤ s.bs.out.length + (7 + s.config.codeMax) / 8) ∧
    (exec .bsend s = .next t → t.bs.out.length ≤ s.bs.out.length + 1) ∧
    (∀ v, exec (.twbyte v) s = .next t →
      t.tw.wout.length ≤ s.tw.wout.length + 1 ∧ t.tw.txt.length ≤ s.tw.txt.length + 8) ∧
    (∀ n, exec (.twbeg n) s = .next t → s.tw.phase ≠ .run → t.tw.wout = [] ∧ t.tw.txt.length ≤ 2)

/-- R31, R140, R145: no step records a cause but 0 or 2 in BS.CAUSE and 0 or 3 in TW.CAUSE; in particular none records
UsageError or TailPackingDegenerate. -/
def Obligations.CausesStayThoseOfTheirUnit : Prop :=
  ∀ s t : State, step s = .next t →
    (s.bs.cause = .none ∨ s.bs.cause = .missingCodeEntry) → (s.tw.cause = .none ∨ s.tw.cause = .malformedTreeLength) →
      (t.bs.cause.code = 0#3 ∨ t.bs.cause.code = 2#3) ∧ (t.tw.cause.code = 0#3 ∨ t.tw.cause.code = 3#3)

/-- R151, R153: a unit in phase FAULT stays there with its record, its streams and its registers as they are under every
word but its own begin command. -/
def Obligations.AFaultedUnitKeepsItsRecord : Prop :=
  ∀ (s t : State) (w : Word) (rest : List HostInput), s.inputs = .command w :: rest → step s = .next t →
    (s.bs.phase = .fault → decode w ≠ .command .bsbeg →
      t.bs.phase = .fault ∧ t.bs.cause = s.bs.cause ∧ t.bs.fsym = s.bs.fsym ∧ t.bs.out = s.bs.out ∧
        t.bs.acc = s.bs.acc ∧ t.bs.cnt = s.bs.cnt ∧ t.bs.pad = s.bs.pad) ∧
    (s.tw.phase = .fault → (∀ n, decode w ≠ .command (.twbeg n)) →
      t.tw = { s.tw with ill := t.tw.ill })

/-- R45 and R46 hold in the reset state, for the reset state's CODE_MAX (the model's choice, log entry 4) and for any
other. -/
def Obligations.ResetStateMeetsTheInvariants : Prop :=
  State.reset.Inv ∧ ∀ codeMax, BspInv codeMax State.reset.bs

/-- R45 items 1 to 4, the last sentence of item 5, and item 7: every step keeps them. -/
def Obligations.EveryStepKeepsTheBspInvariant : Prop :=
  ∀ s t : State, BspInv s.config.codeMax s.bs → step s = .next t → BspInv t.config.codeMax t.bs

/-- R46 items 1 to 5: every step keeps them. -/
def Obligations.EveryStepKeepsTheTwpInvariant : Prop :=
  ∀ s t : State, TwpInv s.tw → step s = .next t → TwpInv t.tw

/-- R46 item 2: in phase RUN the text begins with the opening brace and does not contain the closing one. -/
def Obligations.OpenTextHasNoClosingBrace : Prop :=
  ∀ u : Twp, TwpInv u → u.phase = .run → u.txt.head? = some 0x7B#8 ∧ 0x7D#8 ∉ u.txt

/-! ### The assembler (30_encoding.md) -/

/-- R79, R80, line by line, `asm` being the commands a line assembles to: a plain line gives exactly its command, an operand
out of its range is an assembly error, the pseudo-commands give exactly their expansions, an empty `ctcode` is an assembly
error, and a line that is not a raw `.word` never gives a reserved word. That a `twpack` of more operands than `twbeg` can
declare is an assembly error, and that a number of more than 32 bits after `.word` is one, is the model's choice (log entry
9). -/
def Obligations.AssemblerNeverProducesAReservedWord : Prop :=
  let asm : AsmLine → Option (List Decoded) := fun l => (assemble l).map (fun ws => ws.map decode)
  (asm .ctclr = some [.command .ctclr] ∧ asm .bsbeg = some [.command .bsbeg] ∧ asm .bsend = some [.command .bsend]) ∧
  (∀ s : Nat, (255 < s → assemble (.ctsel s) = none) ∧
    (s ≤ 255 → asm (.ctsel s) = some [.command (.ctsel (BitVec.ofNat 8 s))])) ∧
  (∀ b : Nat, 1 < b → assemble (.ctbit b) = none) ∧
  (asm (.ctbit 0) = some [.command (.ctbit false)] ∧ asm (.ctbit 1) = some [.command (.ctbit true)]) ∧
  (∀ v : Nat, (255 < v → assemble (.bssym v) = none) ∧
    (v ≤ 255 → asm (.bssym v) = some [.command (.bssym (BitVec.ofNat 8 v))])) ∧
  (∀ n : Nat, (16777215 < n → assemble (.twbeg n) = none) ∧
    (n ≤ 16777215 → asm (.twbeg n) = some [.command (.twbeg (BitVec.ofNat 24 n))])) ∧
  (∀ v : Nat, (255 < v → assemble (.twbyte v) = none) ∧
    (v ≤ 255 → asm (.twbyte v) = some [.command (.twbyte (BitVec.ofNat 8 v))])) ∧
  (∀ w : Nat, (4294967295 < w → assemble (.word w) = none) ∧
    (w ≤ 4294967295 → assemble (.word w) = some [BitVec.ofNat 32 w])) ∧
  (∀ (s : Nat) (ds : Bits), (255 < s ∨ ds = [] → assemble (.ctcode s ds) = none) ∧
    (s ≤ 255 → ds ≠ [] →
      asm (.ctcode s ds) = some (.command (.ctsel (BitVec.ofNat 8 s)) :: ds.map (fun d => .command (.ctbit d))))) ∧
  (∀ vs : List Nat, ((∃ v ∈ vs, 255 < v) → assemble (.bspack vs) = none) ∧
    ((∀ v ∈ vs, v ≤ 255) → asm (.bspack vs) =
      some (.command .bsbeg :: vs.map (fun v => .command (.bssym (BitVec.ofNat 8 v))) ++ [.command .bsend]))) ∧
  (∀ vs : List Nat, ((∃ v ∈ vs, 255 < v) ∨ 16777215 < vs.length → assemble (.twpack vs) = none) ∧
    ((∀ v ∈ vs, v ≤ 255) → vs.length ≤ 16777215 → asm (.twpack vs) =
      some (.command (.twbeg (BitVec.ofNat 24 vs.length)) :: vs.map (fun v => .command (.twbyte (BitVec.ofNat 8 v)))))) ∧
  (∀ (l : AsmLine) (ws : List Word), assemble l = some ws → (∀ w, l ≠ .word w) →
    ∀ w ∈ ws, ∃ i, decode w = .command i)
end

