-- ==== Sys2Proof/Laws/State.lean ====
section
/-! SUPPORT. One lemma per field per update of the shared operations, so that no later proof unfolds a record update. -/

namespace Sys2Proof.Machine

/-! ### refuse (60_exceptions.md R144) -/

@[simp] theorem refuse_bsp (s : State) : refuse .bsp s = { s with bs := { s.bs with ill := true } } := rfl
@[simp] theorem refuse_twp (s : State) : refuse .twp s = { s with tw := { s.tw with ill := true } } := rfl
@[simp] theorem refuse_config (u : UnitId) (s : State) : (refuse u s).config = s.config := by cases u <;> rfl
@[simp] theorem refuse_inputs (u : UnitId) (s : State) : (refuse u s).inputs = s.inputs := by cases u <;> rfl

/-! ### raiseFault (60_exceptions.md R150) -/

@[simp] theorem raiseFault_missing (v : Byte) (s : State) :
    raiseFault (.missingCodeEntry v) s =
      { s with bs := { s.bs with cause := .missingCodeEntry, fsym := v, phase := .fault } } := rfl
@[simp] theorem raiseFault_malformed (n : Count) (s : State) :
    raiseFault (.malformedTreeLength n) s =
      { s with tw := { s.tw with cause := .malformedTreeLength, phase := .fault } } := rfl

/-! ### clearBsp, clearTwp (60_exceptions.md R152) -/

@[simp] theorem clearBsp_ct (u : Bsp) : (clearBsp u).ct = u.ct := rfl
@[simp] theorem clearBsp_selV (u : Bsp) : (clearBsp u).selV = u.selV := rfl
@[simp] theorem clearBsp_selI (u : Bsp) : (clearBsp u).selI = u.selI := rfl
@[simp] theorem clearBsp_ill (u : Bsp) : (clearBsp u).ill = u.ill := rfl
@[simp] theorem clearBsp_acc (u : Bsp) : (clearBsp u).acc = 0 := rfl
@[simp] theorem clearBsp_cnt (u : Bsp) : (clearBsp u).cnt = 0 := rfl
@[simp] theorem clearBsp_pad (u : Bsp) : (clearBsp u).pad = 0 := rfl
@[simp] theorem clearBsp_fsym (u : Bsp) : (clearBsp u).fsym = 0 := rfl
@[simp] theorem clearBsp_cause (u : Bsp) : (clearBsp u).cause = .none := rfl
@[simp] theorem clearBsp_out (u : Bsp) : (clearBsp u).out = [] := rfl
@[simp] theorem clearTwp_ill (n : Count) (u : Twp) : (clearTwp n u).ill = u.ill := rfl
@[simp] theorem clearTwp_low (n : Count) (u : Twp) : (clearTwp n u).low = 0 := rfl
@[simp] theorem clearTwp_haveLow (n : Count) (u : Twp) : (clearTwp n u).haveLow = false := rfl
@[simp] theorem clearTwp_sep (n : Count) (u : Twp) : (clearTwp n u).sep = false := rfl
@[simp] theorem clearTwp_cause (n : Count) (u : Twp) : (clearTwp n u).cause = .none := rfl
@[simp] theorem clearTwp_wout (n : Count) (u : Twp) : (clearTwp n u).wout = [] := rfl
@[simp] theorem clearTwp_txt (n : Count) (u : Twp) : (clearTwp n u).txt = [] := rfl
@[simp] theorem clearTwp_rem (n : Count) (u : Twp) : (clearTwp n u).rem = n := rfl

/-! ### applyReset (70_reset_and_hazards.md R170) and present -/

@[simp] theorem applyReset_bs (s : State) : (applyReset s).bs = Bsp.reset := rfl
@[simp] theorem applyReset_tw (s : State) : (applyReset s).tw = Twp.reset := rfl
@[simp] theorem applyReset_config (s : State) : (applyReset s).config = s.config := rfl
@[simp] theorem applyReset_inputs (s : State) : (applyReset s).inputs = s.inputs := rfl
@[simp] theorem present_bs (ws : List Word) (s : State) : (present ws s).bs = s.bs := rfl
@[simp] theorem present_tw (ws : List Word) (s : State) : (present ws s).tw = s.tw := rfl
@[simp] theorem present_config (ws : List Word) (s : State) : (present ws s).config = s.config := rfl
@[simp] theorem present_inputs (ws : List Word) (s : State) : (present ws s).inputs = ws.map .command := rfl

/-- Only the inputs of a state matter less than what is presented: presenting forgets them. -/
@[simp] theorem present_setInputs (ws : List Word) (s : State) (r : List HostInput) :
    present ws { s with inputs := r } = present ws s := rfl

end Sys2Proof.Machine
end

