-- ==== Sys2Proof/Laws/Bits.lean ====
section
/-! SUPPORT. Bit sequences, bytes and groups of eight (00_scope.md R9 to R12). -/

namespace Sys2Proof.Machine

/-! ### natOfBits -/

theorem natOfBits_append (g h : Bits) : natOfBits (g ++ h) = natOfBits g * 2 ^ h.length + natOfBits h := by
  have key : ∀ (h : Bits) (n : Nat),
      h.foldl (fun n b => 2 * n + b.toNat) n = n * 2 ^ h.length + h.foldl (fun n b => 2 * n + b.toNat) 0 := by
    intro h
    induction h with
    | nil => intro n; simp
    | cons b t ih =>
      intro n
      simp only [List.foldl_cons, List.length_cons]
      rw [ih (2 * n + b.toNat), ih (2 * 0 + b.toNat)]
      ring
  unfold natOfBits
  rw [List.foldl_append, key]

@[simp] theorem natOfBits_nil : natOfBits [] = 0 := rfl
@[simp] theorem natOfBits_singleton (b : Bool) : natOfBits [b] = b.toNat := by simp [natOfBits]

theorem natOfBits_cons (b : Bool) (g : Bits) : natOfBits (b :: g) = b.toNat * 2 ^ g.length + natOfBits g := by
  simpa using natOfBits_append [b] g

theorem natOfBits_lt (g : Bits) : natOfBits g < 2 ^ g.length := by
  induction g with
  | nil => simp
  | cons b t ih =>
    rw [natOfBits_cons, List.length_cons, pow_succ]
    cases b <;> simp <;> omega

@[simp] theorem natOfBits_replicate_false (n : Nat) : natOfBits (List.replicate n false) = 0 := by
  induction n with
  | zero => rfl
  | succ n ih => simp [List.replicate_succ, natOfBits_cons, ih]

/-! ### The low bits of a byte, most significant first -/

/-- The low `n` bits of a byte, the most significant first: `heldBits` with n = BS.CNT, `bitsOfByte` with n = 8. -/
def lowBits (v : Byte) (n : Nat) : Bits := (List.range n).map (fun i => v.getLsbD (n - 1 - i))

theorem heldBits_eq (u : Bsp) : heldBits u = lowBits u.acc u.cnt.toNat := rfl

theorem bitsOfByte_eq (v : Byte) : bitsOfByte v = lowBits v 8 := rfl

@[simp] theorem lowBits_zero (v : Byte) : lowBits v 0 = [] := rfl
@[simp] theorem lowBits_length (v : Byte) (n : Nat) : (lowBits v n).length = n := by simp [lowBits]

theorem lowBits_succ (v : Byte) (n : Nat) : lowBits v (n + 1) = v.getLsbD n :: lowBits v n := by
  unfold lowBits
  rw [List.range_succ_eq_map, List.map_cons, List.map_map]
  congr 1
  apply List.map_congr_left
  intro i _
  simp [Nat.sub_sub, Nat.add_comm]

@[simp] theorem heldBits_length (u : Bsp) : (heldBits u).length = u.cnt.toNat := by simp [heldBits_eq]

theorem natOfBits_lowBits (v : Byte) (n : Nat) : natOfBits (lowBits v n) = v.toNat % 2 ^ n := by
  induction n with
  | zero => simp [Nat.mod_one]
  | succ n ih =>
    rw [lowBits_succ, natOfBits_cons, ih, lowBits_length, pow_succ, Nat.mod_mul]
    have : (v.getLsbD n).toNat = v.toNat / 2 ^ n % 2 := by
      simp [BitVec.getLsbD, Nat.testBit_eq_decide_div_mod_eq]
      rcases Nat.mod_two_eq_zero_or_one (v.toNat / 2 ^ n) with h | h <;> simp [h]
    rw [this]; ring

theorem byteOfBits_bitsOfByte (v : Byte) : byteOfBits (bitsOfByte v) = v := by
  apply BitVec.eq_of_toNat_eq
  have := v.isLt
  simp only [byteOfBits, bitsOfByte_eq, natOfBits_lowBits, BitVec.toNat_ofNat]
  omega

/-- A bit sequence is determined by its length and its value. -/
theorem natOfBits_inj {g h : Bits} (hl : g.length = h.length) (hv : natOfBits g = natOfBits h) : g = h := by
  induction g generalizing h with
  | nil => cases h <;> simp_all
  | cons b t ih =>
    cases h with
    | nil => simp at hl
    | cons c u =>
      simp only [List.length_cons, Nat.add_right_cancel_iff] at hl
      rw [natOfBits_cons, natOfBits_cons, hl] at hv
      have h₁ := natOfBits_lt t
      have h₂ := natOfBits_lt u
      rw [hl] at h₁
      cases b <;> cases c <;> simp at hv ⊢
      · exact ih hl hv
      · omega
      · omega
      · exact ih hl hv

theorem bitsOfByte_byteOfBits {g : Bits} (h : g.length = 8) : bitsOfByte (byteOfBits g) = g := by
  apply natOfBits_inj
  · simp [bitsOfByte_eq, h]
  · have := natOfBits_lt g
    rw [h] at this
    simp [bitsOfByte_eq, natOfBits_lowBits, byteOfBits]
    omega

/-! ### Groups of eight -/

@[simp] theorem fullGroups_length (b : Bits) : (fullGroups b).length = b.length / 8 := by simp [fullGroups]

@[simp] theorem tailBits_length (b : Bits) : (tailBits b).length = b.length % 8 := by
  simp [tailBits]; omega

theorem fullGroups_short {b : Bits} (h : b.length < 8) : fullGroups b = [] := by
  simp [fullGroups, Nat.div_eq_of_lt h]

theorem tailBits_short {b : Bits} (h : b.length < 8) : tailBits b = b := by
  simp [tailBits, Nat.div_eq_of_lt h]

theorem fullGroups_append_group {g : Bits} (hg : g.length = 8) (b : Bits) :
    fullGroups (g ++ b) = byteOfBits g :: fullGroups b := by
  unfold fullGroups
  have : (g ++ b).length / 8 = b.length / 8 + 1 := by simp [hg]
  rw [this, List.range_succ_eq_map, List.map_cons, List.map_map]
  congr 1
  · simp [hg]
  · apply List.map_congr_left
    intro k _
    have hd : (g ++ b).drop (8 * (k + 1)) = b.drop (8 * k) := by
      rw [List.drop_append, hg, List.drop_eq_nil_of_le (by omega), List.nil_append]
      congr 1
    simp [hd]

theorem tailBits_append_group {g : Bits} (hg : g.length = 8) (b : Bits) : tailBits (g ++ b) = tailBits b := by
  unfold tailBits
  have : (g ++ b).length / 8 = b.length / 8 + 1 := by simp [hg]
  rw [this, List.drop_append, hg, List.drop_eq_nil_of_le (by omega), List.nil_append]
  congr 1

theorem fullGroups_eight {g : Bits} (hg : g.length = 8) : fullGroups g = [byteOfBits g] := by
  simpa [fullGroups_short] using fullGroups_append_group hg []

/-- Groups of a long sequence can be taken as its bits arrive: what is left of `a` goes before `b` (R12). -/
theorem groups_append (a b : Bits) :
    fullGroups (a ++ b) = fullGroups a ++ fullGroups (tailBits a ++ b) ∧
      tailBits (a ++ b) = tailBits (tailBits a ++ b) := by
  by_cases h : a.length < 8
  · simp [fullGroups_short h, tailBits_short h]
  · have hg : (a.take 8).length = 8 := by simp; omega
    have ih := groups_append (a.drop 8) b
    have ha : a = a.take 8 ++ a.drop 8 := (List.take_append_drop 8 a).symm
    rw [ha, List.append_assoc, fullGroups_append_group hg, tailBits_append_group hg, fullGroups_append_group hg,
      tailBits_append_group hg, ih.1, ih.2]
    simp
termination_by a.length
decreasing_by simp; omega

/-- The bits of the full groups and the tail are the sequence itself (R12). -/
theorem groups_join (b : Bits) : (fullGroups b).flatMap bitsOfByte ++ tailBits b = b := by
  by_cases h : b.length < 8
  · simp [fullGroups_short h, tailBits_short h]
  · have hg : (b.take 8).length = 8 := by simp; omega
    have ih := groups_join (b.drop 8)
    have hb : b = b.take 8 ++ b.drop 8 := (List.take_append_drop 8 b).symm
    have : (fullGroups (b.take 8 ++ b.drop 8)).flatMap bitsOfByte ++ tailBits (b.take 8 ++ b.drop 8)
        = b.take 8 ++ b.drop 8 := by
      rw [fullGroups_append_group hg, tailBits_append_group hg, List.flatMap_cons, bitsOfByte_byteOfBits hg,
        List.append_assoc, ih]
    rwa [← hb] at this
termination_by b.length
decreasing_by simp; omega

@[simp] theorem pad8_length {t : Bits} (h : t.length ≤ 8) : (pad8 t).length = 8 := by simp [pad8]; omega

end Sys2Proof.Machine
end

