-- ==== Sys2Proof/Laws/BitWriter.lean ====
section
/-! SUPPORT. What the bit writer does, said once (41_bitstream_packer.md R101, R102, R105): `appendCode` emits the full
groups of the held bits followed by the code and holds the rest; `flushTail` emits the padded tail. -/

namespace Sys2Proof.Machine

theorem cnt_lt (c : BitVec 3) : c.toNat < 8 := c.isLt

theorem cnt_succ {c : BitVec 3} (h : c ≠ 7) : (c + 1).toNat = c.toNat + 1 := by
  have : c.toNat ≠ 7 := fun e => h (BitVec.eq_of_toNat_eq e)
  have := cnt_lt c
  simp [BitVec.toNat_add]
  omega

theorem shiftIn_getLsbD_zero (acc : Byte) (b : Bool) : (shiftIn acc b).getLsbD 0 = b := by
  cases b <;> simp [shiftIn]

theorem shiftIn_getLsbD_succ (acc : Byte) (b : Bool) (i : Nat) :
    (shiftIn acc b).getLsbD (i + 1) = (decide (i + 1 < 8) && acc.getLsbD i) := by
  cases b <;> simp [shiftIn]

/-- The new bit enters below the held ones. -/
theorem lowBits_shiftIn (acc : Byte) (b : Bool) : ∀ n, n < 8 → lowBits (shiftIn acc b) (n + 1) = lowBits acc n ++ [b]
  | 0, _ => by rw [lowBits_succ, shiftIn_getLsbD_zero]; rfl
  | n + 1, h => by
    rw [lowBits_succ, lowBits_shiftIn acc b n (by omega), lowBits_succ acc n, shiftIn_getLsbD_succ]
    simp [h]

theorem shiftIn_toNat (acc : Byte) (b : Bool) : (shiftIn acc b).toNat = (2 * acc.toNat + b.toNat) % 256 := by
  have h : (shiftIn acc b).toNat = natOfBits (lowBits (shiftIn acc b) 8) := by
    rw [natOfBits_lowBits]; exact (Nat.mod_eq_of_lt (shiftIn acc b).isLt).symm
  rw [h, lowBits_shiftIn acc b 7 (by omega), natOfBits_append, natOfBits_lowBits]
  cases b <;> simp <;> omega

/-- What `push_bit` does to the stream and the held bits, in every state. -/
theorem pushBit_groups (u : Bsp) (b : Bool) :
    (pushBit u b).out = u.out ++ fullGroups (heldBits u ++ [b]) ∧
      heldBits (pushBit u b) = tailBits (heldBits u ++ [b]) := by
  unfold pushBit
  split
  · next h =>
    have h8 : (heldBits u ++ [b]).length = 8 := by simp [h]
    have hb : heldBits u ++ [b] = bitsOfByte (shiftIn u.acc b) := by
      rw [heldBits_eq, bitsOfByte_eq, h]; exact (lowBits_shiftIn u.acc b 7 (by omega)).symm
    refine ⟨?_, ?_⟩
    · rw [fullGroups_eight h8, hb, byteOfBits_bitsOfByte]; rfl
    · simpa [heldBits_eq, tailBits_short] using (tailBits_append_group h8 []).symm
  · next h =>
    have hs : (heldBits u ++ [b]).length < 8 := by
      have := cnt_succ h; have := cnt_lt (u.cnt + 1); simp; omega
    rw [fullGroups_short hs, tailBits_short hs]
    refine ⟨by simp, ?_⟩
    rw [heldBits_eq, heldBits_eq]
    simp only [cnt_succ h]
    exact lowBits_shiftIn u.acc b _ (cnt_lt _)

theorem pushBit_cnt (u : Bsp) (b : Bool) : (pushBit u b).cnt.toNat = (u.cnt.toNat + 1) % 8 := by
  have h := congrArg List.length (pushBit_groups u b).2
  simpa using h

/-- The bits of BS.ACC above the held ones stay 0 (10_state.md R45 item 1). -/
theorem pushBit_acc_lt {u : Bsp} (b : Bool) (h : u.acc.toNat < 2 ^ u.cnt.toNat) :
    (pushBit u b).acc.toNat < 2 ^ (pushBit u b).cnt.toNat := by
  unfold pushBit
  split
  · simp
  · next hc =>
    simp only [cnt_succ hc, shiftIn_toNat, pow_succ]
    refine lt_of_le_of_lt (Nat.mod_le _ _) ?_
    cases b <;> simp <;> omega

/-- `push_bit` writes BS.ACC, BS.CNT and BS.OUT and nothing else. -/
theorem pushBit_frame (u : Bsp) (b : Bool) :
    pushBit u b = { u with acc := (pushBit u b).acc, cnt := (pushBit u b).cnt, out := (pushBit u b).out } := by
  unfold pushBit
  split <;> rfl

/-- Everything `append_code` does (R102). -/
theorem appendCode_spec (u : Bsp) (c : Bits) :
    (appendCode u c).out = u.out ++ fullGroups (heldBits u ++ c) ∧
      heldBits (appendCode u c) = tailBits (heldBits u ++ c) ∧
      (u.acc.toNat < 2 ^ u.cnt.toNat → (appendCode u c).acc.toNat < 2 ^ (appendCode u c).cnt.toNat) ∧
      appendCode u c =
        { u with acc := (appendCode u c).acc, cnt := (appendCode u c).cnt, out := (appendCode u c).out } := by
  induction c generalizing u with
  | nil =>
    have hs : (heldBits u).length < 8 := by simpa using cnt_lt u.cnt
    simp [appendCode, fullGroups_short hs, tailBits_short hs]
  | cons b c ih =>
    obtain ⟨h₁, h₂, h₃, h₄⟩ := ih (pushBit u b)
    obtain ⟨p₁, p₂⟩ := pushBit_groups u b
    obtain ⟨g₁, g₂⟩ := groups_append (heldBits u ++ [b]) c
    have e : appendCode u (b :: c) = appendCode (pushBit u b) c := rfl
    rw [e]
    refine ⟨?_, ?_, fun h => h₃ (pushBit_acc_lt b h), ?_⟩
    · rw [h₁, p₁, p₂, List.append_assoc, ← g₁]; simp
    · rw [h₂, p₂, ← g₂]; simp
    · rw [h₄, pushBit_frame u b]

theorem appendCode_cnt (u : Bsp) (c : Bits) : (appendCode u c).cnt.toNat = (u.cnt.toNat + c.length) % 8 := by
  simpa using congrArg List.length (appendCode_spec u c).2.1

/-- With the upper bits 0, BS.ACC is the value of the held bits. -/
theorem acc_eq_held {u : Bsp} (h : u.acc.toNat < 2 ^ u.cnt.toNat) : u.acc.toNat = natOfBits (heldBits u) := by
  rw [heldBits_eq, natOfBits_lowBits, Nat.mod_eq_of_lt h]

/-- The tail byte is the held bits padded on the right with zeros (R105), in every state. -/
theorem tailByte_eq {acc : Byte} {cnt : BitVec 3} (h : cnt ≠ 0) :
    tailByte acc cnt = byteOfBits (pad8 (lowBits acc cnt.toNat)) := by
  have h0 : cnt.toNat ≠ 0 := fun e => h (BitVec.eq_of_toNat_eq e)
  have h8 := cnt_lt cnt
  apply BitVec.eq_of_toNat_eq
  simp only [tailByte, byteOfBits, pad8, natOfBits_append, natOfBits_lowBits, lowBits_length,
    natOfBits_replicate_false, List.length_replicate, BitVec.toNat_shiftLeft, BitVec.toNat_ofNat, Nat.add_zero,
    Nat.shiftLeft_eq]
  have hp : (2 : Nat) ^ 8 = 2 ^ cnt.toNat * 2 ^ (8 - cnt.toNat) := by rw [← pow_add]; congr 1; omega
  rw [hp, Nat.mul_mod_mul_right, Nat.mul_mod_mul_right, Nat.mod_mod]

/-- The two ways the tail is flushed: nothing is held, or the held bits leave as one padded byte (R105, R106). -/
theorem flushTail_cases (u : Bsp) :
    (u.cnt = 0 ∧ flushTail u = u) ∨
    (u.cnt ≠ 0 ∧ flushTail u = { u with out := u.out ++ [byteOfBits (pad8 (heldBits u))], acc := 0, cnt := 0 }) := by
  by_cases h : u.cnt = 0
  · exact .inl ⟨h, if_pos h⟩
  · exact .inr ⟨h, by rw [flushTail, if_neg h, tailByte_eq h]; rfl⟩

theorem padOfCnt_toNat (c : BitVec 3) : (padOfCnt c).toNat = (8 - c.toNat) % 8 := by
  simp [padOfCnt]

end Sys2Proof.Machine
end

