-- ==== Sys2Proof/Laws/Encoding.lean ====
section
/-! SUPPORT. The fields of a command word as numbers (30_encoding.md R71, R74), and the unit a command's word names (R72). -/

namespace Sys2Proof.Machine

@[simp] theorem opcodeOf_toNat (w : Word) : (opcodeOf w).toNat = w.toNat / 2 ^ 24 := by
  have := w.isLt
  simp [opcodeOf, BitVec.extractLsb'_toNat, Nat.shiftRight_eq_div_pow]
  omega

@[simp] theorem argOf_toNat (w : Word) : (argOf w).toNat = w.toNat % 2 ^ 24 := by
  simp [argOf, BitVec.extractLsb'_toNat]

@[simp] theorem byteOperand_toNat (a : BitVec 24) : (byteOperand a).toNat = a.toNat % 256 := by
  simp [byteOperand, BitVec.extractLsb'_toNat]

@[simp] theorem aboveByte_toNat (a : BitVec 24) : (aboveByte a).toNat = a.toNat / 256 := by
  have := a.isLt
  simp [aboveByte, BitVec.extractLsb'_toNat, Nat.shiftRight_eq_div_pow]
  omega

@[simp] theorem aboveBit_toNat (a : BitVec 24) : (aboveBit a).toNat = a.toNat / 2 := by
  have := a.isLt
  simp [aboveBit, BitVec.extractLsb'_toNat, Nat.shiftRight_eq_div_pow]
  omega

theorem bitOperand_eq (a : BitVec 24) : bitOperand a = decide (a.toNat % 2 = 1) := by
  simp [bitOperand, BitVec.getLsbD, Nat.testBit_eq_decide_div_mod_eq]

theorem aboveByte_eq_zero (a : BitVec 24) : aboveByte a = 0 ↔ a.toNat < 256 := by
  rw [← BitVec.toNat_inj]; simp [Nat.div_eq_zero_iff]

theorem aboveBit_eq_zero (a : BitVec 24) : aboveBit a = 0 ↔ a.toNat < 2 := by
  rw [← BitVec.toNat_inj]; simp [Nat.div_eq_zero_iff]

theorem arg_eq_zero (w : Word) : argOf w = 0 ↔ w.toNat % 2 ^ 24 = 0 := by
  rw [← BitVec.toNat_inj]; simp

theorem opcode_eq (w : Word) (c : BitVec 8) : opcodeOf w = c ↔ w.toNat / 2 ^ 24 = c.toNat := by
  rw [← BitVec.toNat_inj]; simp

/-- Bit 31 of a word is the top bit of its opcode (R71). -/
theorem bit31_eq (w : Word) : w.getLsbD 31 = decide (128 ≤ w.toNat / 2 ^ 24) := by
  have := w.isLt
  simp only [BitVec.getLsbD, Nat.testBit_eq_decide_div_mod_eq]
  congr 1
  apply propext
  omega

theorem unitOf_eq (w : Word) : unitOf w = if 128 ≤ w.toNat / 2 ^ 24 then .twp else .bsp := by
  simp only [unitOf, bit31_eq, decide_eq_true_eq]

/-- A word belongs to the unit of the command it decodes to (R72). -/
theorem decode_unit {w : Word} {i : Instr} (h : decode w = .command i) : unitOf w = i.unit := by
  rw [unitOf_eq]
  simp only [decode, opcode_eq] at h
  split_ifs at h <;> cases h <;> simp [Instr.unit] at * <;> omega

/-- A reserved word belongs to the unit that refuses it (R72, R76). -/
theorem decode_reserved_unit {w : Word} {u : UnitId} (h : decode w = .reserved u) : u = unitOf w := by
  simp only [decode] at h
  split_ifs at h
  cases h
  rfl

end Sys2Proof.Machine
end

