-- ==== Sys2Proof/Laws/Flags.lean ====
section
/-! SUPPORT. The bits of a status register's field (10_state.md R39 to R42). -/

namespace Sys2Proof.Machine

/-- A field fills the bits from `lo` up and no other. -/
theorem field_getLsbD {width : Nat} (lo : Nat) (v : BitVec width) (i : Nat) :
    (field lo v).getLsbD i = (decide (i < 32) && decide (lo ≤ i) && v.getLsbD (i - lo)) := by
  simp only [field, BitVec.getLsbD_shiftLeft, BitVec.truncate_eq_setWidth, BitVec.getLsbD_setWidth]
  by_cases h : i < 32 <;> by_cases h' : lo ≤ i
  · have : i - lo < 32 := by omega
    simp [h, h', this]
  all_goals simp [h, h']

end Sys2Proof.Machine
end

