-- ==== Sys2Proof/Laws/PerInstr.lean ====
section
/-! SUPPORT. What holds of every command as syntax, one lemma per constructor: its word is the word of its row of
30_encoding.md R73 (match and mask), it belongs to its unit, and its operands are in range. -/

namespace Sys2Proof.Laws

open Sys2Proof.Machine

/-- The match value of a command's row (R73). -/
def rowMatch : Instr → Word
  | .ctclr => 0x01000000
  | .ctsel _ => 0x02000000
  | .ctbit _ => 0x03000000
  | .bsbeg => 0x04000000
  | .bssym _ => 0x05000000
  | .bsend => 0x06000000
  | .twbeg _ => 0x81000000
  | .twbyte _ => 0x82000000

/-- The mask of a command's row (R73). -/
def rowMask : Instr → Word
  | .ctclr => 0xFFFFFFFF
  | .ctsel _ => 0xFFFFFF00
  | .ctbit _ => 0xFFFFFFFE
  | .bsbeg => 0xFFFFFFFF
  | .bssym _ => 0xFFFFFF00
  | .bsend => 0xFFFFFFFF
  | .twbeg _ => 0xFF000000
  | .twbyte _ => 0xFFFFFF00

/-- An operand stays below the bits its row fixes. -/
theorem operand_masked {n : Nat} (m mask : Word) (v : BitVec n) (hm : m &&& mask = m)
    (hv : ∀ i, i < n → mask.getLsbD i = false) : (m ||| v.zeroExtend 32) &&& mask = m := by
  apply BitVec.eq_of_getLsbD_eq
  intro i hi
  have h := congrArg (fun x => x.getLsbD i) hm
  simp only [BitVec.getLsbD_and, BitVec.getLsbD_or, BitVec.truncate_eq_setWidth, BitVec.getLsbD_setWidth] at h ⊢
  by_cases hn : i < n
  · rw [hv i hn] at h ⊢
    simpa using h
  · rw [BitVec.getLsbD_of_ge v i (by omega)]
    simpa using h

theorem bit31_masked {n : Nat} (m : Word) (v : BitVec n) (hn : n ≤ 31) :
    unitOf (m ||| v.zeroExtend 32) = unitOf m := by
  have : v.getLsbD 31 = false := BitVec.getLsbD_of_ge v 31 hn
  simp only [unitOf, BitVec.getLsbD_or, BitVec.truncate_eq_setWidth, BitVec.getLsbD_setWidth, this, Bool.and_false,
    Bool.or_false]

/-- The family `RowMatch`: the command's word matches its row, names its unit, and its operands are in range. -/
def RowMatch.Statement (i : Instr) : Prop :=
  encode i &&& rowMask i = rowMatch i ∧ unitOf (encode i) = i.unit ∧ i.WellFormed

theorem RowMatch.ctclr : RowMatch.Statement .ctclr := by unfold Statement; decide

theorem RowMatch.ctsel (s : Byte) : RowMatch.Statement (.ctsel s) :=
  ⟨operand_masked 0x02000000 0xFFFFFF00 s (by decide) (by decide), bit31_masked _ s (by decide), Nat.le_of_lt_succ s.isLt⟩

theorem RowMatch.ctbit (b : Bool) : RowMatch.Statement (.ctbit b) :=
  ⟨operand_masked 0x03000000 0xFFFFFFFE (BitVec.ofBool b) (by decide) (by decide), bit31_masked _ _ (by decide), trivial⟩

theorem RowMatch.bsbeg : RowMatch.Statement .bsbeg := by unfold Statement; decide

theorem RowMatch.bssym (v : Byte) : RowMatch.Statement (.bssym v) :=
  ⟨operand_masked 0x05000000 0xFFFFFF00 v (by decide) (by decide), bit31_masked _ v (by decide), Nat.le_of_lt_succ v.isLt⟩

theorem RowMatch.bsend : RowMatch.Statement .bsend := by unfold Statement; decide

theorem RowMatch.twbeg (n : Count) : RowMatch.Statement (.twbeg n) :=
  ⟨operand_masked 0x81000000 0xFF000000 n (by decide) (by decide), bit31_masked _ n (by decide), Nat.le_of_lt_succ n.isLt⟩

theorem RowMatch.twbyte (v : Byte) : RowMatch.Statement (.twbyte v) :=
  ⟨operand_masked 0x82000000 0xFFFFFF00 v (by decide) (by decide), bit31_masked _ v (by decide), Nat.le_of_lt_succ v.isLt⟩

end Sys2Proof.Laws
end

