-- ==== Sys2Proof/Laws/Table.lean ====
section
/-! SUPPORT. Read after write of the code table, and that every operation on it keeps its well-formedness
(10_state.md R22, R45 item 7). -/

namespace Sys2Proof.Machine

@[simp] theorem lookup_put_self (t : CodeTable) (v : Byte) (c : Bits) : (t.put v c).lookup v = c := by
  simp [CodeTable.lookup, CodeTable.put]

theorem lookup_put_ne (t : CodeTable) (c : Bits) {v w : Byte} (h : w ≠ v) : (t.put v c).lookup w = t.lookup w := by
  have : v.toNat ≠ w.toNat := fun e => h (BitVec.eq_of_toNat_eq e.symm)
  simp [CodeTable.lookup, CodeTable.put, this]

theorem lookup_put (t : CodeTable) (v w : Byte) (c : Bits) :
    (t.put v c).lookup w = if w = v then c else t.lookup w := by
  by_cases h : w = v
  · subst h; simp
  · simp [h, lookup_put_ne]

@[simp] theorem lookup_cleared (v : Byte) : CodeTable.cleared.lookup v = [] := by
  simp [CodeTable.lookup, CodeTable.cleared]

@[simp] theorem lookup_reset (v : Byte) : Bsp.reset.ct.lookup v = [] := lookup_cleared v

/-- Two tables that read the same are the same: equal tables are equal data. -/
theorem table_ext {t u : CodeTable} (h : ∀ v, t.lookup v = u.lookup v) : t = u := by
  apply Vector.ext
  intro i hi
  have := h (BitVec.ofNat 8 i)
  simpa [CodeTable.lookup, Nat.mod_eq_of_lt hi] using this

theorem wf_cleared (codeMax : Nat) : CodeTable.cleared.wf codeMax := fun v => by simp

theorem wf_put {t : CodeTable} {codeMax : Nat} (h : t.wf codeMax) (v : Byte) {c : Bits} (hc : c.length ≤ codeMax) :
    (t.put v c).wf codeMax := fun w => by
  rw [lookup_put]
  split
  · exact hc
  · exact h w

end Sys2Proof.Machine
end

