-- ==== Sys2Proof/Laws/Step.lean ====
section
/-! SUPPORT. Everything a step can do, said once: a command's effect on its own unit, which depends on nothing of the other
unit, and the run of a word sequence as two independent folds (10_state.md R47, 30_encoding.md R72). -/

namespace Sys2Proof.Machine

/-- A meaning answers a next state and touches only its unit; CODE_MAX and the inputs stay. -/
theorem exec_next (i : Instr) (s : State) :
    ∃ t, exec i s = .next t ∧ t.inputs = s.inputs ∧ t.config = s.config ∧
      (i.unit = .bsp → t.tw = s.tw) ∧ (i.unit = .twp → t.bs = s.bs) := by
  cases i <;>
    simp only [exec, execCtclr, execCtsel, execCtbit, execBsbeg, execBssym, execBsend, execTwbeg, execTwbyte, Instr.unit] <;>
    split_ifs <;> exact ⟨_, rfl, by simp⟩

/-- The effect of an accepted word, by itself: what `step` does with it. -/
def wordEffect (w : Word) (s : State) : Host.Outcome State Fault Refusal :=
  match decode w with
  | .command i => exec i s
  | .reserved u => .next (refuse u s)

theorem step_command {s : State} {w : Word} {rest : List HostInput} (h : s.inputs = .command w :: rest) :
    step s = wordEffect w { s with inputs := rest } := by
  cases s
  cases h
  rfl

theorem step_reset {s : State} {p : Option Word} {rest : List HostInput} (h : s.inputs = .reset p :: rest) :
    step s = .next (applyReset { s with inputs := rest }) := by
  cases s
  cases h
  rfl

theorem step_idle {s : State} (h : s.inputs = []) : step s = .next s := by
  cases s
  cases h
  rfl

theorem wordEffect_command {w : Word} {i : Instr} (h : decode w = .command i) (s : State) :
    wordEffect w s = exec i s := by simp [wordEffect, h]

theorem wordEffect_reserved {w : Word} {u : UnitId} (h : decode w = .reserved u) (s : State) :
    wordEffect w s = .next (refuse u s) := by simp [wordEffect, h]

theorem wordEffect_next (w : Word) (s : State) :
    ∃ t, wordEffect w s = .next t ∧ t.inputs = s.inputs ∧ t.config = s.config ∧
      (unitOf w = .bsp → t.tw = s.tw) ∧ (unitOf w = .twp → t.bs = s.bs) := by
  cases h : decode w with
  | command i => simpa [wordEffect_command h, decode_unit h] using exec_next i s
  | reserved u =>
    rw [wordEffect_reserved h, ← decode_reserved_unit h]
    exact ⟨_, rfl, by simp, by simp, by rintro rfl; simp, by rintro rfl; simp⟩

/-- The next state of an outcome that is one. -/
def nextOr (s : State) : Host.Outcome State Fault Refusal → State
  | .next t => t
  | _ => s

/-- A BSP word's effect on BSP alone, everything else at its reset value. -/
def bspWord (codeMax : Nat) (u : Bsp) (w : Word) : Bsp :=
  let s : State := { bs := u, tw := Twp.reset, config := { codeMax := codeMax }, inputs := [] }
  (nextOr s (wordEffect w s)).bs

/-- A TWP word's effect on TWP alone, everything else at its reset value. -/
def twpWord (u : Twp) (w : Word) : Twp :=
  let s : State := { State.reset with tw := u }
  (nextOr s (wordEffect w s)).tw

theorem wordEffect_bsp {w : Word} (h : unitOf w = .bsp) (s : State) :
    wordEffect w s = .next { s with bs := bspWord s.config.codeMax s.bs w } := by
  obtain ⟨bs, tw, ⟨cm⟩, inputs⟩ := s
  cases hd : decode w with
  | reserved u =>
    have hu := decode_reserved_unit hd
    rw [h] at hu
    subst hu
    simp [bspWord, wordEffect_reserved hd, nextOr]
  | command i =>
    have hu := decode_unit hd
    rw [h] at hu
    simp only [bspWord, wordEffect_command hd]
    cases i <;> simp [Instr.unit] at hu <;>
      simp only [exec, execCtclr, execCtsel, execCtbit, execBsbeg, execBssym, execBsend, nextOr] <;>
      split_ifs <;> rfl

theorem wordEffect_twp {w : Word} (h : unitOf w = .twp) (s : State) :
    wordEffect w s = .next { s with tw := twpWord s.tw w } := by
  obtain ⟨bs, tw, cfg, inputs⟩ := s
  cases hd : decode w with
  | reserved u =>
    have hu := decode_reserved_unit hd
    rw [h] at hu
    subst hu
    simp [twpWord, wordEffect_reserved hd, nextOr]
  | command i =>
    have hu := decode_unit hd
    rw [h] at hu
    simp only [twpWord, wordEffect_command hd]
    cases i <;> simp [Instr.unit] at hu <;>
      simp only [exec, execTwbeg, execTwbyte, nextOr] <;>
      split_ifs <;> rfl

/-! ### Runs -/

theorem run_succ {s t : State} (h : step s = .next t) (n : Nat) :
    Host.Core.run Sys2Proof.core (n + 1) s = Host.Core.run Sys2Proof.core n t := by
  have h' : Sys2Proof.core.step s = .next t := h
  rw [Host.Core.run.eq_2 Sys2Proof.core s n, h']

theorem runWords_nil (s : State) : runWords [] s = .next { s with inputs := [] } := rfl

/-- A run of words is the fold of the effects, and nothing of the inputs is left. -/
theorem runWords_eq (ws : List Word) (s : State) :
    runWords ws s = .next
      { bs := (wordsFor .bsp ws).foldl (bspWord s.config.codeMax) s.bs
        tw := (wordsFor .twp ws).foldl twpWord s.tw
        config := s.config
        inputs := [] } := by
  induction ws generalizing s with
  | nil => rfl
  | cons w ws ih =>
    have hrun : ∀ t, wordEffect w { s with inputs := ws.map .command } = .next t →
        runWords (w :: ws) s = Host.Core.run Sys2Proof.core ws.length t := by
      intro t ht
      have hs : step (present (w :: ws) s) = .next t := by
        rw [step_command (present_inputs (w :: ws) s)]; exact ht
      exact run_succ hs _
    cases hu : unitOf w with
    | bsp =>
      rw [hrun _ (wordEffect_bsp hu _)]
      have := ih { s with bs := bspWord s.config.codeMax s.bs w }
      simpa [runWords, present, wordsFor, hu] using this
    | twp =>
      rw [hrun _ (wordEffect_twp hu _)]
      have := ih { s with tw := twpWord s.tw w }
      simpa [runWords, present, wordsFor, hu] using this

end Sys2Proof.Machine
end

