-- ==== Sys2Proof/Laws/Text.lean ====
section
/-! SUPPORT. The literal as it grows (00_scope.md R16, 42_tree_word_packer.md R124, R125). -/

namespace Sys2Proof.Machine

theorem values_snoc : ∀ (ws : List Word16) (w : Word16),
    values (ws ++ [w]) = values ws ++ (if ws = [] then [] else separator) ++ dec w
  | [], w => by simp [values]
  | [v], w => by simp [values]
  | v :: u :: ws, w => by
    have := values_snoc (u :: ws) w
    simp [values] at this ⊢
    rw [this]

/-- Everything `renderWord` does: the separator if a word was rendered before, then the numeral (R124). -/
theorem renderWord_eq (sep : Bool) (txt : List Byte) (w : Word16) :
    renderWord sep txt w = txt ++ (if sep then separator else []) ++ dec w := by
  cases sep <;> simp [renderWord, emitStr]

/-- Rendering one more word keeps the text the open literal of the words so far (R125). -/
theorem renderWord_openLiteral {sep : Bool} {ws : List Word16} (h : sep = true ↔ 1 ≤ ws.length) (w : Word16) :
    renderWord sep (openLiteral ws) w = openLiteral (ws ++ [w]) := by
  rw [renderWord_eq, openLiteral, openLiteral, values_snoc]
  cases ws <;> cases sep <;> simp_all [values]

/-- Closing the open literal gives the literal (R125). -/
theorem openLiteral_close (ws : List Word16) : emitStr (openLiteral ws) [closeBrace] = literal ws := rfl

/-- The two ways a pair completes: it was the last one, or it was not (R122). -/
theorem completePair_cases (v : Byte) (u : Twp) :
    (u.rem - 1 = 0 ∧ completePair v u =
      { u with
        wout := u.wout ++ [word u.low v]
        txt := renderWord u.sep u.txt (word u.low v) ++ [closeBrace]
        sep := true, haveLow := false, rem := u.rem - 1, phase := .done }) ∨
    (u.rem - 1 ≠ 0 ∧ completePair v u =
      { u with
        wout := u.wout ++ [word u.low v]
        txt := renderWord u.sep u.txt (word u.low v)
        sep := true, haveLow := false, rem := u.rem - 1 }) := by
  by_cases h : u.rem - 1 = 0
  · exact .inl ⟨h, by simp only [completePair, if_pos h]; rfl⟩
  · exact .inr ⟨h, by simp only [completePair, if_neg h]; rfl⟩

end Sys2Proof.Machine
end

