-- ==== Sys2Proof/Tests/Slice0.lean ====
section
/-! SUPPORT. The model's own tests, with expected results written out from the spec (30_encoding.md R73, the examples of the
command rules, 95_test_vectors.md), and for every statement with hypotheses a state and operands that meet them. -/

namespace Sys2Proof.Tests

-- One theorem at a time: elaborating the tests side by side takes a thread each, and the check's memory bounds those.
set_option Elab.async false

open Sys2Proof.Machine

/-! ### Small states -/

/-- The bits of a code string, `0` and `1`. -/
def code (digits : String) : Bits := digits.toList.map (· == '1')

/-- CT of program P1: {65: "0", 66: "10", 67: "11"}. -/
def tableP1 : CodeTable :=
  ((CodeTable.cleared.put 65 (code "0")).put 66 (code "10")).put 67 (code "11")

/-- No code of P1 is longer than two digits. -/
theorem tableP1_wf : tableP1.wf 2 := by
  intro v
  simp only [tableP1, lookup_put, lookup_cleared]
  split_ifs <;> decide

/-- BSP with a table, nothing selected, in a phase, holding bits. -/
def withBsp (ct : CodeTable) (phase : Phase) (acc : Byte) (cnt : BitVec 3) : State :=
  { State.reset with bs := { Bsp.reset with ct := ct, phase := phase, acc := acc, cnt := cnt } }

/-- The load pointer on an entry. -/
def selecting (e : Byte) (s : State) : State := { s with bs := { s.bs with selV := true, selI := e } }

/-- TWP in phase RUN. -/
def withTwp (low : Byte) (haveLow sep : Bool) (rem : Count) (wout : List Word16) (txt : List Byte) : State :=
  { State.reset with tw :=
    { Twp.reset with phase := .run, low := low, haveLow := haveLow, rem := rem, sep := sep, wout := wout, txt := txt } }

/-- BSP in phase FAULT after `bsbeg`, `bssym 200` with an empty table (V33). -/
def faultedBsp : State :=
  { State.reset with bs := { Bsp.reset with phase := .fault, cause := .missingCodeEntry, fsym := 200 } }

/-- TWP in phase FAULT after `twbeg 5` (V55). -/
def faultedTwp : State :=
  { State.reset with tw := { Twp.reset with phase := .fault, cause := .malformedTreeLength, rem := 5 } }

/-- One command word presented. -/
def offering (w : Word) (s : State) : State := { s with inputs := [.command w] }

/-- A smaller CODE_MAX. -/
def limited (n : Nat) (s : State) : State := { s with config := { codeMax := n } }

def isNext : Host.Outcome State Fault Refusal → Bool
  | .next _ => true
  | .fault _ => false
  | .refused _ => false

theorem eq_next {o : Host.Outcome State Fault Refusal} (s : State) (h : isNext o = true) : o = .next (nextOr s o) := by
  cases o <;> first | rfl | simp [isNext] at h

/-- The state after one command. -/
def after (i : Instr) (s : State) : State := nextOr State.reset (exec i s)

/-- The four status registers, in the order BS_STAT, CT_SEL, TW_STAT, TW_REM. -/
def stats (s : State) : List Word := [bsStat s, ctSel s, twStat s, twRem s]

/-! ### Assembler lines that are ill formed, one for each check (R79, R80), and the greatest legal operands -/

theorem test_ctsel_range : AsmLine.wellFormed (.ctsel 256) = false ∧ AsmLine.wellFormed (.ctsel 255) = true := by decide
theorem test_ctbit_range : AsmLine.wellFormed (.ctbit 2) = false ∧ AsmLine.wellFormed (.ctbit 1) = true := by decide
theorem test_bssym_range : AsmLine.wellFormed (.bssym 256) = false ∧ AsmLine.wellFormed (.bssym 255) = true := by decide
theorem test_twbeg_range :
    AsmLine.wellFormed (.twbeg 16777216) = false ∧ AsmLine.wellFormed (.twbeg 16777215) = true := by decide
theorem test_twbyte_range : AsmLine.wellFormed (.twbyte 256) = false ∧ AsmLine.wellFormed (.twbyte 255) = true := by decide
theorem test_word_range :
    AsmLine.wellFormed (.word 4294967296) = false ∧ AsmLine.wellFormed (.word 4294967295) = true := by decide
theorem test_ctcode_range :
    AsmLine.wellFormed (.ctcode 256 [true]) = false ∧ AsmLine.wellFormed (.ctcode 255 []) = false ∧
      AsmLine.wellFormed (.ctcode 255 [true]) = true := by decide
theorem test_bspack_range : AsmLine.wellFormed (.bspack [0, 256]) = false ∧ AsmLine.wellFormed (.bspack []) = true := by decide
theorem test_twpack_range : AsmLine.wellFormed (.twpack [256]) = false ∧ AsmLine.wellFormed (.twpack [1]) = true := by decide
/-- More operands than `twbeg` can declare. -/
theorem test_twpack_length (vs : List Nat) (h : 16777216 ≤ vs.length) : AsmLine.wellFormed (.twpack vs) = false := by
  simp only [AsmLine.wellFormed, Bool.and_eq_false_iff, decide_eq_false_iff_not]
  omega

/-! ### One word of each row, written out bit by bit: OP in bits 31 to 24, ARG in bits 23 to 0 (R71, R73) -/

theorem test_decode_ctclr : decode 0b00000001_000000000000000000000000 = .command .ctclr := by decide
theorem test_decode_ctsel : decode 0b00000010_000000000000000011000011 = .command (.ctsel 0b11000011) := by decide
theorem test_decode_ctbit : decode 0b00000011_000000000000000000000001 = .command (.ctbit true) := by decide
theorem test_decode_bsbeg : decode 0b00000100_000000000000000000000000 = .command .bsbeg := by decide
theorem test_decode_bssym : decode 0b00000101_000000000000000001000001 = .command (.bssym 65) := by decide
theorem test_decode_bsend : decode 0b00000110_000000000000000000000000 = .command .bsend := by decide
theorem test_decode_twbeg :
    decode 0b10000001_100000000000000000000110 = .command (.twbeg 0b100000000000000000000110) := by decide
theorem test_decode_twbyte : decode 0b10000010_000000000000000010101011 = .command (.twbyte 0xAB) := by decide
/-- R75's own example, and a TWBYTE with the highest unused bit set. -/
theorem test_decode_reserved :
    decode 0x05000141 = .reserved .bsp ∧ decode 0b10000010_100000000000000000000000 = .reserved .twp := by decide
theorem test_decodeTableWord :
    decodeTableWord 32 0x820000AB = some (.twbyte 0xAB) ∧ decodeTableWord 32 0x83000000 = none := by decide

/-! ### One step of each command -/

/-- R91's example: CT[65] = "0" before, absent after, SEL cleared. -/
theorem test_ctclr :
    (after .ctclr (selecting 65 (withBsp tableP1 .done 0 0))).bs.ct.lookup 65 = [] ∧
      ctSel (after .ctclr (selecting 65 (withBsp tableP1 .done 0 0))) = 0 := by decide +kernel
/-- V30: refused in phase RUN. -/
theorem test_ctclr_refused :
    stats (after .ctclr (selecting 1 (withBsp tableP1 .run 1 1))) = [0x00001045, 0x00000101, 0, 0] ∧
      (after .ctclr (selecting 1 (withBsp tableP1 .run 1 1))).bs.ct.lookup 66 = code "10" := by decide +kernel
/-- R92's example. -/
theorem test_ctsel :
    (after (.ctsel 66) (withBsp tableP1 .idle 0 0)).bs.ct.lookup 66 = [] ∧
      ctSel (after (.ctsel 66) (withBsp tableP1 .idle 0 0)) = 0x00000142 := by decide +kernel
/-- V39: admitted in phase FAULT, and the fault record stays. -/
theorem test_ctsel_in_fault : stats (after (.ctsel 7) faultedBsp) = [0x0C800013, 0x00000107, 0, 0] := by decide +kernel
/-- V36: the digit goes to the end of the selected entry. -/
theorem test_ctbit :
    (after (.ctbit true) (selecting 5 (withBsp (CodeTable.cleared.put 5 (code "100")) .idle 0 0))).bs.ct.lookup 5 =
      code "1001" := by decide +kernel
/-- V34: no entry selected; V41: the entry is full. -/
theorem test_ctbit_refused :
    stats (after (.ctbit true) State.reset) = [0x00000004, 0, 0, 0] ∧
      (after (.ctbit true) (limited 2 (selecting 66 (withBsp tableP1 .idle 0 0)))).bs.ct.lookup 66 = code "10" ∧
      bsStat (after (.ctbit true) (limited 2 (selecting 66 (withBsp tableP1 .idle 0 0)))) = 0x00000004 := by decide +kernel
/-- V33: BSBEG from FAULT clears the record. -/
theorem test_bsbeg : stats (after .bsbeg faultedBsp) = [0x00000001, 0, 0, 0] := by decide +kernel
/-- V32: BSBEG from DONE empties the stream. -/
theorem test_bsbeg_empties :
    (after .bsbeg { withBsp tableP1 .done 0 0 with bs := { Bsp.reset with phase := .done, pad := 7, out := [0x80] } }).bs.out =
      [] := by decide +kernel
/-- R104's example, step 12 of P1; the accumulator is read back as 010. -/
theorem test_bssym :
    stats (after (.bssym 66) (withBsp tableP1 .run 0 1)) = [0x000020C1, 0, 0, 0] ∧
      (after (.bssym 66) (withBsp tableP1 .run 0 1)).bs.out = [] := by decide +kernel
/-- V23: 17 bits from BS.CNT = 7; step 9 of P3: the fault. -/
theorem test_bssym_emits_and_faults :
    (after (.bssym 8) (withBsp (CodeTable.cleared.put 8 (code "10110011100011110")) .run 0x7F 7)).bs.out =
      [0xFF, 0x67, 0x1E] ∧
      stats (after (.bssym 67) (withBsp (tableP1.put 67 []) .run 2 3)) = [0x043020D3, 0, 0, 0] := by decide +kernel
/-- R105's example. -/
theorem test_bsend :
    (after .bsend (withBsp tableP1 .run 0b01011 5)).bs.out = [0x58] ∧
      stats (after .bsend (withBsp tableP1 .run 0b01011 5)) = [0x00000602, 0, 0, 0] := by decide +kernel
/-- R106: no tail byte; V29: refused outside a run. -/
theorem test_bsend_empty_and_refused :
    (after .bsend (withBsp tableP1 .run 0 0)).bs.out = [] ∧
      stats (after .bsend (withBsp tableP1 .run 0 0)) = [0x00000002, 0, 0, 0] ∧
      stats (after .bsend State.reset) = [0x00000004, 0, 0, 0] := by decide +kernel
/-- V49 and V50. -/
theorem test_twbeg :
    stats (after (.twbeg 16777215) State.reset) = [0, 0, 0x0000001B, 0x00FFFFFF] ∧
      stats (after (.twbeg 16777214) State.reset) = [0, 0, 0x00000001, 0x00FFFFFE] := by decide +kernel
/-- V55: TWBEG 0 from FAULT; the text is the two braces. -/
theorem test_twbeg_zero :
    stats (after (.twbeg 0) faultedTwp) = [0, 0, 0x00000002, 0] ∧
      (after (.twbeg 0) faultedTwp).tw.txt = [0x7B, 0x7D] := by decide +kernel
/-- R122's example: word 0x0201, text "513" after the brace. -/
theorem test_twbyte :
    (after (.twbyte 2) (withTwp 1 true false 3 [] [0x7B])).tw.wout = [0x0201] ∧
      (after (.twbyte 2) (withTwp 1 true false 3 [] [0x7B])).tw.txt = [0x7B, 0x35, 0x31, 0x33] ∧
      stats (after (.twbyte 2) (withTwp 1 true false 3 [] [0x7B])) = [0, 0, 0x00000181, 2] := by decide +kernel
/-- The last step of P2: the separator, "1027" and the closing brace in one step. -/
theorem test_twbyte_last :
    (after (.twbyte 4) (withTwp 3 true true 1 [0x0201] [0x7B, 0x35, 0x31, 0x33])).tw.txt =
      [0x7B, 0x35, 0x31, 0x33, 0x2C, 0x20, 0x31, 0x30, 0x32, 0x37, 0x7D] ∧
      stats (after (.twbyte 4) (withTwp 3 true true 1 [0x0201] [0x7B, 0x35, 0x31, 0x33])) = [0, 0, 0x00000382, 0] := by
  decide +kernel

/-! ### Numerals, reset, the step, the assembler -/

/-- V56, V58, V63, V66. -/
theorem test_dec :
    dec 0 = [0x30] ∧ dec 10 = [0x31, 0x30] ∧ dec 9999 = [0x39, 0x39, 0x39, 0x39] ∧
      dec 65535 = [0x36, 0x35, 0x35, 0x33, 0x35] := by decide +kernel
/-- V69 in small: reset from a faulted state with a table and ILL set, the word presented meanwhile not executed. -/
theorem test_reset :
    stats (nextOr State.reset (step { selecting 66 (withBsp tableP1 .run 1 1) with
      tw := { faultedTwp.tw with ill := true }, inputs := [.reset (some 0x04000000)] })) = [0, 0, 0, 0] ∧
    (nextOr State.reset (step { selecting 66 (withBsp tableP1 .run 1 1) with
      inputs := [.reset (some 0x04000000)] })).bs.ct.lookup 66 = [] := by decide +kernel
/-- Steps 17 and 21 of P4: a reserved word sets the ILL bit of the unit its bit 31 names. -/
theorem test_reserved_word :
    stats (nextOr State.reset (step (offering 0x83000000 State.reset))) = [0, 0, 0x00000004, 0] ∧
      stats (nextOr State.reset (step (offering 0x07000000 State.reset))) = [0x00000004, 0, 0, 0] := by decide +kernel
/-- The word placed for the next step is the one that runs: `twbeg 4` from reset (P2, step 1). -/
theorem test_withFetchWord :
    stats (nextOr State.reset (step (State.reset.withFetchWord 32 0x81000004))) = [0, 0, 0x00000001, 4] := by decide +kernel
/-- R94's words for one pair, a pseudo-command with a comment, and an operand out of range. -/
theorem test_assemble_lines :
    assembleLine "ctcode 66, \"10\"  # the entry of 66".toList = some [0x02000042, 0x03000001, 0x03000000] ∧
      assembleLine "twpack 0x34, 0b10010".toList = some [0x81000002, 0x82000034, 0x82000012] ∧
      assembleLine ".word 0x83000000".toList = some [0x83000000] ∧ assembleLine "ctsel 256".toList = none := by
  decide +kernel

/-! ### Witnesses: for every statement with hypotheses, a state and operands that meet all of them, clause by clause, at the
ends of their ranges -/

/-- A word that decodes to a command that is not admitted, or to none, in the form the statements use. -/
theorem not_admitted {w : Word} {s : State} {i : Instr} (h : decode w = .command i) (ha : admitted s i = false) :
    ∀ j, decode w = .command j → admitted s j = false := by
  intro j hj
  rw [h] at hj
  cases hj
  exact ha

theorem reserved_not_admitted {w : Word} {s : State} {u : UnitId} (h : decode w = .reserved u) :
    ∀ j, decode w = .command j → admitted s j = false := by
  intro j hj
  rw [h] at hj
  cases hj

theorem witness_DecoderIsTheInverseOfTheEncoder : decode 0x820000FF = .command (.twbyte 255) := by decide

theorem witness_RowsAreTheirMatchAndMask :
    decode 0x020000FF = .command (.ctsel 255) ∧ decode 0x03000001 = .command (.ctbit true) ∧
      decode 0x05000000 = .command (.bssym 0) ∧ decode 0x81FFFFFF = .command (.twbeg 16777215) ∧
      decode 0x82000080 = .command (.twbyte 128) := by decide

theorem witness_ReservedWordsAreTheRest :
    decode 0x83000000 = .reserved .twp ∧ decode 0x020001FF = .reserved .bsp ∧
      (0x00FFFFFF#32).toNat / 2 ^ 24 = 0 ∧ (0x07000000#32).toNat / 2 ^ 24 = 7 ∧
      (0x80FFFFFF#32).toNat / 2 ^ 24 = 0x80 ∧ (0x83000000#32).toNat / 2 ^ 24 = 0x83 := by decide

theorem witness_StepRunsTheDecodedCommand :
    (offering 0x05000042 (withBsp tableP1 .run 0 1)).inputs = .command 0x05000042 :: [] ∧
      decode 0x05000042 = .command (.bssym 66) := by decide

theorem witness_EveryStepCompletesAndTakesOneInput :
    (offering 0x83000000 State.reset).inputs = .command 0x83000000 :: [] ∧ State.reset.inputs = [] := by decide

theorem witness_ResetInputReachesEverything :
    ({ faultedBsp with inputs := [.reset (some 0x04000000), .command 0x06000000] } : State).inputs =
      .reset (some 0x04000000) :: [.command 0x06000000] := by decide

theorem witness_RefusalSetsOnlyTheUnitsIll :
    ((offering 0x06000000 State.reset).inputs = .command 0x06000000 :: [] ∧
      ∀ i, decode 0x06000000 = .command i → admitted (offering 0x06000000 State.reset) i = false) ∧
    ((offering 0x83000000 State.reset).inputs = .command 0x83000000 :: [] ∧
      ∀ i, decode 0x83000000 = .command i → admitted (offering 0x83000000 State.reset) i = false) :=
  ⟨⟨rfl, not_admitted (i := .bsend) (by decide) (by decide)⟩, ⟨rfl, reserved_not_admitted (u := .twp) (by decide)⟩⟩

theorem witness_AdmittedCommandsLeaveIllAlone :
    (admitted State.reset .bsbeg = true ∧ exec .bsbeg State.reset = .next (after .bsbeg State.reset) ∧
      Instr.unit .bsbeg = .bsp) ∧
    (admitted faultedTwp (.twbeg 1) = true ∧ exec (.twbeg 1) faultedTwp = .next (after (.twbeg 1) faultedTwp) ∧
      (Instr.twbeg 1).unit = .twp) :=
  ⟨⟨by decide, eq_next _ (by decide +kernel), rfl⟩, ⟨by decide, eq_next _ (by decide +kernel), rfl⟩⟩

/-- The state after a word sequence presented in a state. -/
def ran (ws : List Word) (s : State) : State := nextOr s (runWords ws s)

theorem witness_ClearIllMeansEveryWordWasExecuted :
    (runWords ([0x04000000] ++ 0x06000000 :: [0x83000000]) State.reset =
        .next (ran [0x04000000, 0x06000000, 0x83000000] State.reset) ∧
      unitOf 0x06000000 = .bsp ∧ (ran [0x04000000, 0x06000000, 0x83000000] State.reset).bs.ill = false) ∧
    (runWords ([0x81000002] ++ 0x82000001 :: []) State.reset = .next (ran [0x81000002, 0x82000001] State.reset) ∧
      unitOf 0x82000001 = .twp ∧ (ran [0x81000002, 0x82000001] State.reset).tw.ill = false) :=
  ⟨⟨eq_next _ (by decide +kernel), by decide, by decide +kernel⟩, ⟨eq_next _ (by decide +kernel), by decide, by decide +kernel⟩⟩

theorem witness_CtclrEmptiesTheTable :
    (withBsp tableP1 .fault 0 0).bs.phase ≠ .run ∧ (withBsp tableP1 .run 0 0).bs.phase = .run := by decide

theorem witness_CtselEmptiesAndSelectsOneEntry :
    (withBsp tableP1 .done 0 0).bs.phase ≠ .run ∧ (66 : Byte) ≠ 67 ∧ (withBsp tableP1 .run 0 0).bs.phase = .run := by decide

/-- One digit below CODE_MAX is admitted, at CODE_MAX refused. -/
theorem witness_CtbitAppendsOneDigit :
    (let s := limited 3 (selecting 66 (withBsp tableP1 .idle 0 0))
     s.bs.phase ≠ .run ∧ s.bs.selV = true ∧ (s.bs.ct.lookup s.bs.selI).length < s.config.codeMax ∧ (65 : Byte) ≠ s.bs.selI) ∧
    (let s := limited 2 (selecting 66 (withBsp tableP1 .idle 0 0))
     s.bs.phase ≠ .run ∧ s.bs.selV = true ∧ s.config.codeMax ≤ (s.bs.ct.lookup s.bs.selI).length) ∧
    (withBsp tableP1 .run 0 0).bs.phase = .run ∧ (withBsp tableP1 .idle 0 0).bs.selV = false := by decide +kernel

theorem witness_TableChangesOnlyOutsideARun :
    (let s := offering 0x02000042 faultedBsp
     s.inputs = .command 0x02000042 :: [] ∧ step s = .next (nextOr s (step s)) ∧
       (nextOr s (step s)).bs.selV ≠ s.bs.selV) ∧
    (let s : State := { selecting 65 (withBsp tableP1 .run 0 0) with inputs := [.reset none] }
     s.inputs = .reset none :: [] ∧ step s = .next (nextOr s (step s)) ∧ (nextOr s (step s)).bs.ct ≠ s.bs.ct) :=
  ⟨⟨rfl, eq_next _ (by decide +kernel), by decide +kernel⟩,
    ⟨rfl, eq_next _ (by decide +kernel), fun h => absurd (congrArg (fun t => t.lookup 65) h) (by decide +kernel)⟩⟩

theorem witness_CodeTableCommandsFrame :
    (exec (.ctsel 65) (withBsp tableP1 .run 0 0) = .next (after (.ctsel 65) (withBsp tableP1 .run 0 0)) ∧
      admitted (withBsp tableP1 .run 0 0) (.ctsel 65) = false) ∧
    (let s := selecting 66 (withBsp tableP1 .done 0 0)
     exec .ctclr s = .next (after .ctclr s) ∧ exec (.ctsel 65) s = .next (after (.ctsel 65) s) ∧
       exec (.ctbit true) s = .next (after (.ctbit true) s) ∧
       admitted s (.ctbit true) = true ∧ (67 : Byte) ≠ 65 ∧ (67 : Byte) ≠ s.bs.selI) :=
  ⟨⟨eq_next _ (by decide +kernel), by decide⟩, eq_next _ (by decide +kernel), eq_next _ (by decide +kernel),
    eq_next _ (by decide +kernel), by decide +kernel, by decide, by decide⟩

/-- A duplicate key, and a code of exactly CODE_MAX digits. -/
theorem witness_LoadedTableHoldsTheCodes :
    (limited 2 State.reset).bs.phase ≠ .run ∧
      ∀ p ∈ [((65 : Byte), code "0"), (65, code "11")],
        codeMin ≤ p.2.length ∧ p.2.length ≤ (limited 2 State.reset).config.codeMax := by decide

theorem witness_BsbegClearsTheRunAndBegins :
    faultedBsp.bs.phase ≠ .run ∧ (withBsp tableP1 .run 1 1).bs.phase = .run ∧ faultedBsp.bs.phase = .fault ∧
      Instr.bsend ≠ .bsbeg ∧ exec .bsend faultedBsp = .next (after .bsend faultedBsp) :=
  ⟨by decide, by decide, rfl, by decide, eq_next _ (by decide +kernel)⟩

/-- A present byte value with seven bits held, an absent one, and a unit that is not in a run. -/
theorem witness_BssymAppendsTheCode :
    (let s := withBsp tableP1 .run 0x7F 7
     s.bs.phase = .run ∧ s.bs.ct.lookup 66 ≠ [] ∧ s.bs.acc.toNat < 2 ^ s.bs.cnt.toNat ∧ s.bs.ct.lookup 68 = []) ∧
    State.reset.bs.phase ≠ .run := by decide +kernel

theorem witness_BssymOfAnAbsentByteTakesTheFaultEntry :
    (let s := offering 0x050000FF (withBsp tableP1 .run 2 3)
     s.inputs = .command 0x050000FF :: [] ∧ decode 0x050000FF = .command (.bssym 255) ∧
       (s.bs.phase = .run → s.bs.ct.lookup 255 = []) ∧ s.bs.phase = .run) ∧
    (let s := offering 0x05000041 (withBsp tableP1 .done 0 0)
     s.inputs = .command 0x05000041 :: [] ∧ decode 0x05000041 = .command (.bssym 65) ∧
       (s.bs.phase = .run → s.bs.ct.lookup 65 = []) ∧ s.bs.phase ≠ .run) := by decide +kernel

theorem witness_BsendFlushesTheTail :
    ((withBsp tableP1 .run 0 0).bs.phase = .run ∧ (withBsp tableP1 .run 0 0).bs.cnt = 0) ∧
    ((withBsp tableP1 .run 1 1).bs.phase = .run ∧ (withBsp tableP1 .run 1 1).bs.cnt ≠ 0) ∧
    ((withBsp tableP1 .run 0x7F 7).bs.phase = .run ∧ (withBsp tableP1 .run 0x7F 7).bs.cnt ≠ 0) ∧
    faultedBsp.bs.phase ≠ .run := by decide

theorem witness_BitstreamPackerCommandsFrame :
    exec .bsbeg faultedBsp = .next (after .bsbeg faultedBsp) ∧
      (let s := withBsp tableP1 .run 0x7F 7
       exec (.bssym 66) s = .next (after (.bssym 66) s) ∧ s.bs.ct.lookup 66 ≠ [] ∧
       exec (.bssym 68) s = .next (after (.bssym 68) s) ∧ s.bs.ct.lookup 68 = [] ∧
       exec .bsend s = .next (after .bsend s) ∧ admitted s .bsend = true ∧
       exec .bsbeg s = .next (after .bsbeg s) ∧ admitted s .bsbeg = false) :=
  ⟨eq_next _ (by decide +kernel), eq_next _ (by decide +kernel), by decide +kernel, eq_next _ (by decide +kernel),
    by decide +kernel, eq_next _ (by decide +kernel), by decide, eq_next _ (by decide +kernel), by decide⟩

theorem witness_BspPhaseTransitions :
    (offering 0x05000041 (withBsp tableP1 .run 0 0)).inputs = .command 0x05000041 :: [] ∧
      (0x05000041#32).getLsbD 31 = false ∧ decode 0x01000000 = .command .ctclr ∧ decode 0x020000FF = .command (.ctsel 255) ∧
      decode 0x03000000 = .command (.ctbit false) ∧ decode 0x04000000 = .command .bsbeg ∧
      decode 0x06000000 = .command .bsend ∧ decode 0x7FFFFFFF = .reserved .bsp ∧
      decode 0x05000041 = .command (.bssym 65) ∧
      ((withBsp tableP1 .run 0 0).bs.phase = .run ∧ (withBsp tableP1 .run 0 0).bs.ct.lookup 65 ≠ []) ∧
      ((withBsp CodeTable.cleared .run 0 0).bs.phase = .run ∧ (withBsp CodeTable.cleared .run 0 0).bs.ct.lookup 65 = []) ∧
      (withBsp tableP1 .done 0 0).bs.phase ≠ .run := by decide +kernel

theorem witness_BeginCommandsForgetTheRunBefore :
    (faultedBsp.bs.phase ≠ .run ∧ State.reset.bs.phase ≠ .run ∧ faultedBsp.bs.ct = State.reset.bs.ct ∧
      faultedBsp.bs.selV = State.reset.bs.selV ∧ faultedBsp.bs.selI = State.reset.bs.selI ∧
      faultedBsp.bs.ill = State.reset.bs.ill ∧ faultedBsp.tw = State.reset.tw ∧ faultedBsp.config = State.reset.config ∧
      faultedBsp.inputs = State.reset.inputs) ∧
    (faultedTwp.tw.phase ≠ .run ∧ State.reset.tw.phase ≠ .run ∧ faultedTwp.tw.ill = State.reset.tw.ill ∧
      faultedTwp.bs = State.reset.bs ∧ faultedTwp.config = State.reset.config ∧ faultedTwp.inputs = State.reset.inputs) :=
  ⟨⟨by decide, by decide, rfl, rfl, rfl, rfl, rfl, rfl, rfl⟩, ⟨by decide, by decide, rfl, rfl, rfl, rfl⟩⟩

/-- `bsbeg`, `twbeg 2`, `bssym 65`, `bssym 66`, the two units interleaved. -/
theorem witness_RunInProgressHoldsTheCodeString :
    (withBsp tableP1 .done 0 0).bs.phase ≠ .run ∧
      wordsFor .bsp [0x04000000, 0x81000002, 0x05000041, 0x05000042] = wordsOf (.bsbeg :: [65, 66].map .bssym) ∧
      bitseq (withBsp tableP1 .done 0 0).bs.ct [65, 66] = some (code "010") := by decide +kernel

/-- The document's scenario E1, with a reserved TWP word between, and the empty input. -/
theorem witness_BspRunPacksTheInput :
    ((withBsp tableP1 .idle 0 0).bs.phase ≠ .run ∧
      wordsFor .bsp [0x04000000, 0x05000041, 0x83000000, 0x05000042, 0x05000043, 0x06000000] = wordsOf (bspack [65, 66, 67]) ∧
      bitseq (withBsp tableP1 .idle 0 0).bs.ct [65, 66, 67] = some (code "01011")) ∧
    (faultedBsp.bs.phase ≠ .run ∧ wordsFor .bsp [0x04000000, 0x06000000] = wordsOf (bspack []) ∧
      bitseq faultedBsp.bs.ct [] = some []) := by decide +kernel

theorem witness_BspRunFaultsAtTheFirstAbsentByte :
    (withBsp tableP1 .idle 0 0).bs.phase ≠ .run ∧
      wordsFor .bsp [0x04000000, 0x05000041, 0x82000000, 0x05000044, 0x05000042, 0x06000000] =
        wordsOf (bspack ([65] ++ 68 :: [66])) ∧
      bitseq (withBsp tableP1 .idle 0 0).bs.ct [65] = some (code "0") ∧
      (withBsp tableP1 .idle 0 0).bs.ct.lookup 68 = [] := by decide +kernel

theorem witness_UnpackingGivesBackTheCodeString :
    (withBsp tableP1 .idle 0 0).bs.phase ≠ .run ∧
      wordsFor .bsp [0x04000000, 0x05000043, 0x06000000] = wordsOf (bspack [67]) ∧
      bitseq (withBsp tableP1 .idle 0 0).bs.ct [67] = some (code "11") := by decide +kernel

theorem witness_HostOrderGivesTheResult :
    State.reset.bs.phase ≠ .run ∧ State.reset.bs.ill = false ∧
      (∀ p ∈ [((65 : Byte), code "0"), (66, code "10")],
        codeMin ≤ p.2.length ∧ p.2.length ≤ State.reset.config.codeMax) ∧
      (∀ v ∈ [(66 : Byte), 65, 66], ∃ p ∈ [((65 : Byte), code "0"), (66, code "10")], p.1 = v) := by decide

/-- The three classes of counts, at both ends, and a run in progress. -/
theorem witness_TwbegDeclaresTheBuffer :
    State.reset.tw.phase ≠ .run ∧ faultedTwp.tw.phase ≠ .run ∧
      (2 : Count) ≠ 0 ∧ (2 : Count).toNat % 2 = 0 ∧ (16777214 : Count) ≠ 0 ∧ (16777214 : Count).toNat % 2 = 0 ∧
      (1 : Count).toNat % 2 = 1 ∧ (16777215 : Count).toNat % 2 = 1 ∧
      (withTwp 0 false false 2 [] [0x7B]).tw.phase = .run := by decide

theorem witness_TwbyteAssemblesAndRendersPairs :
    ((withTwp 0 false false 2 [] [0x7B]).tw.phase = .run ∧ (withTwp 0 false false 2 [] [0x7B]).tw.haveLow = false) ∧
    ((withTwp 1 true false 1 [] [0x7B]).tw.phase = .run ∧ (withTwp 1 true false 1 [] [0x7B]).tw.haveLow = true) ∧
    State.reset.tw.phase ≠ .run := by decide

theorem witness_TreeWordPackerCommandsFrame :
    (exec (.twbeg 3) faultedTwp = .next (after (.twbeg 3) faultedTwp) ∧ admitted faultedTwp (.twbeg 3) = true) ∧
      (exec (.twbyte 3) faultedTwp = .next (after (.twbyte 3) faultedTwp) ∧ admitted faultedTwp (.twbyte 3) = false) ∧
      (let s := withTwp 1 true false 1 [] [0x7B]
       exec (.twbyte 2) s = .next (after (.twbyte 2) s) ∧ s.tw.haveLow = true) ∧
      (let s := withTwp 0 false false 2 [] [0x7B]
       exec (.twbyte 2) s = .next (after (.twbyte 2) s) ∧ s.tw.haveLow = false) :=
  ⟨⟨eq_next _ (by decide +kernel), by decide⟩, ⟨eq_next _ (by decide +kernel), by decide⟩,
    ⟨eq_next _ (by decide +kernel), rfl⟩, ⟨eq_next _ (by decide +kernel), rfl⟩⟩

/-- The last byte of a pair with one byte to come, and with more to come; each class of count; a reserved word. -/
theorem witness_TwpPhaseTransitions :
    (let s := offering 0x82000002 (withTwp 1 true false 1 [] [0x7B])
     s.inputs = .command 0x82000002 :: [] ∧ (0x82000002#32).getLsbD 31 = true ∧
       decode 0x82000002 = .command (.twbyte 2) ∧ s.tw.phase = .run ∧ s.tw.haveLow = true ∧
       (nextOr s (step s)).tw.rem = 0) ∧
    (let s := offering 0x82000002 (withTwp 0 false false 2 [] [0x7B])
     s.inputs = .command 0x82000002 :: [] ∧ s.tw.phase = .run ∧ (nextOr s (step s)).tw.rem ≠ 0) ∧
    (decode 0x81000000 = .command (.twbeg 0) ∧ decode 0x81FFFFFE = .command (.twbeg 16777214) ∧
      decode 0x81000001 = .command (.twbeg 1) ∧ decode 0xFFFFFFFF = .reserved .twp ∧ faultedTwp.tw.phase ≠ .run) := by
  decide +kernel

/-- Three of four declared bytes, the other unit's BSBEG between. -/
theorem witness_UnfinishedTwpRunHoldsThePairsSoFar :
    faultedTwp.tw.phase ≠ .run ∧ (4 : Count).toNat % 2 = 0 ∧ [(1 : Byte), 2, 3].length < (4 : Count).toNat ∧
      wordsFor .twp [0x81000004, 0x82000001, 0x04000000, 0x82000002, 0x82000003] =
        wordsOf (.twbeg 4 :: [1, 2, 3].map .twbyte) ∧
      [(1 : Byte), 2, 3].length % 2 = 1 := by decide +kernel

theorem witness_TwpRunRendersTheBuffer :
    (State.reset.tw.phase ≠ .run ∧ [(0x34 : Byte), 0x12].length % 2 = 0 ∧ [(0x34 : Byte), 0x12].length < 2 ^ 24 ∧
      wordsFor .twp [0x81000002, 0x07000000, 0x82000034, 0x82000012] = wordsOf (twpack [0x34, 0x12]) ∧
      [(0x34 : Byte), 0x12][2 * 0]? = some 0x34 ∧ [(0x34 : Byte), 0x12][2 * 0 + 1]? = some 0x12) ∧
    wordsFor .twp [0x81000000] = wordsOf (twpack []) := by decide +kernel

theorem witness_OddTwpRunGivesNoOutput :
    State.reset.tw.phase ≠ .run ∧ [(7 : Byte)].length % 2 = 1 ∧ [(7 : Byte)].length < 2 ^ 24 ∧
      wordsFor .twp [0x81000001, 0x04000000, 0x82000007] = wordsOf (twpack [7]) := by decide +kernel

theorem witness_ByteOfBitsWeighsTheFirstBitMost : (code "10000001").length = 8 := by decide

theorem witness_WordsAreLittleEndianPairs :
    words [0xFF, 0x00] = some [0x00FF] ∧ words [1] = none ∧
      [(0xFF : Byte), 0x00][2 * 0]? = some 0xFF ∧ [(0xFF : Byte), 0x00][2 * 0 + 1]? = some 0x00 := by decide +kernel

theorem witness_DecIsTheDecimalNumeral : (dec 0).head? = some 0x30 ∧ (0x39 : Byte) ∈ dec 9 := by decide +kernel

theorem witness_LiteralHasTheDocumentsForm : 1 ≤ [(65535 : Word16)].length := by decide

/-- Each phase and each cause the two CAUSE fields can hold. -/
theorem witness_BspStatusRegisters :
    (State.reset.bs.phase = .idle ∧ State.reset.bs.cause = .none) ∧ (withBsp tableP1 .run 0 0).bs.phase = .run ∧
      (withBsp tableP1 .done 0 0).bs.phase = .done ∧
      (faultedBsp.bs.phase = .fault ∧ faultedBsp.bs.cause = .missingCodeEntry) := by decide

theorem witness_TwpStatusRegisters :
    ((State.reset.tw.phase = .idle ∧ State.reset.tw.cause = .none) ∧
      (withTwp 0 false false 2 [] [0x7B]).tw.phase = .run ∧ (after (.twbeg 0) State.reset).tw.phase = .done ∧
      (faultedTwp.tw.phase = .fault ∧ faultedTwp.tw.cause = .malformedTreeLength)) ∧
    (2 ≤ 2 ∧ 2 ≤ 7) ∧ (2 ≤ 7 ∧ 7 ≤ 7) ∧ 10 ≤ 10 := by decide

/-- The same word in two states that differ in the other unit, one word for each unit. -/
theorem witness_AWordTouchesOnlyItsUnit :
    ((offering 0x04000000 faultedTwp).inputs = .command 0x04000000 :: [] ∧
      (offering 0x04000000 State.reset).inputs = .command 0x04000000 :: [] ∧
      (offering 0x04000000 faultedTwp).config = (offering 0x04000000 State.reset).config ∧
      (0x04000000#32).getLsbD 31 = false ∧ (offering 0x04000000 faultedTwp).bs = (offering 0x04000000 State.reset).bs) ∧
    ((offering 0x81000004 faultedBsp).inputs = .command 0x81000004 :: [] ∧
      (offering 0x81000004 State.reset).inputs = .command 0x81000004 :: [] ∧
      (offering 0x81000004 faultedBsp).config = (offering 0x81000004 State.reset).config ∧
      (0x81000004#32).getLsbD 31 = true ∧ (offering 0x81000004 faultedBsp).tw = (offering 0x81000004 State.reset).tw) :=
  ⟨⟨rfl, rfl, rfl, by decide, rfl⟩, ⟨rfl, rfl, rfl, by decide, rfl⟩⟩

theorem witness_StreamsOnlyGrowWithinARun :
    (let s := offering 0x06000000 (withBsp tableP1 .run 1 1)
     s.inputs = .command 0x06000000 :: [] ∧ step s = .next (nextOr s (step s))) ∧
    (let s := offering 0x04000000 { State.reset with bs := { Bsp.reset with phase := .done, out := [0x80], pad := 7 } }
     s.inputs = .command 0x04000000 :: [] ∧ step s = .next (nextOr s (step s))) :=
  ⟨⟨rfl, eq_next _ (by decide +kernel)⟩, ⟨rfl, eq_next _ (by decide +kernel)⟩⟩

theorem witness_EmissionsOfOneCommandAreBounded :
    (let s := limited 2 (withBsp tableP1 .run 0x7F 7)
     exec (.bssym 67) s = .next (after (.bssym 67) s) ∧ s.bs.ct.wf s.config.codeMax ∧
       exec .bsend s = .next (after .bsend s)) ∧
    (let s := withTwp 255 true true 1 [0] [0x7B, 0x30]
     exec (.twbyte 255) s = .next (after (.twbyte 255) s)) ∧
    (exec (.twbeg 0) State.reset = .next (after (.twbeg 0) State.reset) ∧ State.reset.tw.phase ≠ .run) :=
  ⟨⟨eq_next _ (by decide +kernel), tableP1_wf, eq_next _ (by decide +kernel)⟩, eq_next _ (by decide +kernel),
    eq_next _ (by decide +kernel), by decide⟩

theorem witness_CausesStayThoseOfTheirUnit :
    let s : State := { offering 0x83000000 faultedBsp with tw := faultedTwp.tw }
    step s = .next (nextOr s (step s)) ∧ (s.bs.cause = .none ∨ s.bs.cause = .missingCodeEntry) ∧
      (s.tw.cause = .none ∨ s.tw.cause = .malformedTreeLength) :=
  ⟨eq_next _ (by decide +kernel), by decide, by decide⟩

theorem witness_AFaultedUnitKeepsItsRecord :
    (let s := offering 0x06000000 faultedBsp
     s.inputs = .command 0x06000000 :: [] ∧ step s = .next (nextOr s (step s)) ∧ s.bs.phase = .fault ∧
       decode 0x06000000 ≠ .command .bsbeg) ∧
    (let s := offering 0x82000001 faultedTwp
     s.inputs = .command 0x82000001 :: [] ∧ step s = .next (nextOr s (step s)) ∧ s.tw.phase = .fault ∧
       ∀ n, decode 0x82000001 ≠ .command (.twbeg n)) := by
  refine ⟨⟨rfl, eq_next _ (by decide +kernel), rfl, by decide⟩, ⟨rfl, eq_next _ (by decide +kernel), rfl, fun n h => ?_⟩⟩
  have : decode 0x82000001 = .command (.twbyte 1) := by decide
  rw [this] at h
  cases h

/-- A run in progress with seven bits held, and the word that ends it. -/
theorem witness_EveryStepKeepsTheBspInvariant :
    let s := offering 0x06000000 (limited 2 (withBsp tableP1 .run 0x7F 7))
    BspInv s.config.codeMax s.bs ∧ step s = .next (nextOr s (step s)) :=
  ⟨⟨by decide, by decide, by decide, by decide, by decide, by decide, tableP1_wf⟩, eq_next _ (by decide +kernel)⟩

/-- Half a pair with one byte to come, and the byte that ends the run. -/
theorem witness_EveryStepKeepsTheTwpInvariant :
    let s := offering 0x82000004 (withTwp 3 true true 1 [0x0201] [0x7B, 0x35, 0x31, 0x33])
    TwpInv s.tw ∧ step s = .next (nextOr s (step s)) :=
  ⟨⟨by decide, by decide, by decide, by decide, by decide, by decide⟩, eq_next _ (by decide +kernel)⟩

theorem witness_OpenTextHasNoClosingBrace :
    let u := (withTwp 3 true true 1 [0x0201] [0x7B, 0x35, 0x31, 0x33]).tw
    TwpInv u ∧ u.phase = .run :=
  ⟨⟨by decide, by decide, by decide, by decide, by decide, by decide⟩, rfl⟩

/-- Both sides of each range at its ends, and lines that assemble. -/
theorem witness_AssemblerNeverProducesAReservedWord :
    (255 < 256 ∧ 255 ≤ 255 ∧ 1 < 2 ∧ 16777215 < 16777216 ∧ 16777215 ≤ 16777215 ∧ 4294967295 < 4294967296 ∧
      4294967295 ≤ 4294967295 ∧ code "0" ≠ []) ∧
    (∃ v ∈ [0, 256], 255 < v) ∧ (∀ v ∈ [0, 255], v ≤ 255) ∧ [0, 255].length ≤ 16777215 ∧
    16777215 < (List.replicate 16777216 0).length ∧
    assemble (.twpack [1]) = some [0x81000001, 0x82000001] ∧ ∀ w, AsmLine.twpack [1] ≠ .word w := by
  refine ⟨by decide, by decide, by decide, by decide, ?_, by decide, ?_⟩
  · rw [List.length_replicate]
    decide
  · intro w h
    cases h

end Sys2Proof.Tests
end

section
/-! PROOFS. The pure functions of the data model (00_scope.md R9, R14 to R16, with R129's length). -/

namespace Sys2Proof.Proofs

open Sys2Proof Sys2Proof.Machine

/-! ### The value of a bit sequence (R9) -/

/-- R9's sum, for a sequence of any length: bit `i` weighs 2^(length − 1 − i). -/
theorem natOfBits_eq_sum (g : Bits) :
    natOfBits g = ((List.range g.length).map (fun i => (g.getD i false).toNat * 2 ^ (g.length - 1 - i))).sum := by
  induction g with
  | nil => rfl
  | cons b t ih =>
    rw [natOfBits_cons, ih, List.length_cons, List.range_succ_eq_map, List.map_cons, List.map_map, List.sum_cons]
    congr 2
    apply List.map_congr_left
    intro i _
    have : t.length - (i + 1) = t.length - 1 - i := by omega
    simp [this]

theorem byteOfBits_toNat {g : Bits} (h : g.length = 8) : (byteOfBits g).toNat = natOfBits g := by
  have hlt : natOfBits g < 2 ^ 8 := h ▸ natOfBits_lt g
  rw [byteOfBits, BitVec.toNat_ofNat, Nat.mod_eq_of_lt hlt]

/-- Settles O38: the value is R9's sum, and reading the bits of a byte inverts `byteOfBits`. -/
theorem byteOfBitsWeighsTheFirstBitMost : Obligations.ByteOfBitsWeighsTheFirstBitMost := by
  intro g h
  refine ⟨?_, bitsOfByte_byteOfBits h⟩
  rw [byteOfBits_toNat h, natOfBits_eq_sum, h]

/-! ### Words (R14) -/

/-- The high byte above the low one. -/
theorem word_eq_append (lo hi : Byte) : word lo hi = hi ++ lo := by
  apply BitVec.eq_of_getLsbD_eq
  intro i hlt
  rw [word, BitVec.getLsbD_append]
  by_cases h : i < 8
  · simp [h, hlt]
  · have : lo.getLsbD i = false := BitVec.getLsbD_of_ge lo i (by omega)
    simp [h, hlt, this]

theorem word_toNat (lo hi : Byte) : (word lo hi).toNat = lo.toNat + 256 * hi.toNat := by
  rw [word_eq_append, BitVec.toNat_append, ← Nat.shiftLeft_add_eq_or_of_lt lo.isLt, Nat.shiftLeft_eq]
  omega

theorem words_eq_none_iff : ∀ buf : List Byte, words buf = none ↔ buf.length % 2 = 1
  | [] => by simp [words]
  | [_] => by simp [words]
  | lo :: hi :: rest => by
    have ih := words_eq_none_iff rest
    have hlen : (lo :: hi :: rest).length % 2 = rest.length % 2 := Nat.add_mod_right rest.length 2
    rw [words, Option.map_eq_none_iff, ih, hlen]

/-- What `words` answers for a buffer that begins with a pair. -/
theorem words_pair_eq_some {lo hi : Byte} {rest : List Byte} {ws : List Word16}
    (h : words (lo :: hi :: rest) = some ws) : ∃ vs, words rest = some vs ∧ ws = word lo hi :: vs := by
  obtain ⟨vs, hvs, rfl⟩ := Option.map_eq_some_iff.mp h
  exact ⟨vs, hvs, rfl⟩

theorem words_length : ∀ {buf : List Byte} {ws : List Word16}, words buf = some ws → ws.length = buf.length / 2
  | [], _, h => by cases h; rfl
  | [_], _, h => by cases h
  | _ :: _ :: rest, _, h => by
    obtain ⟨vs, hvs, rfl⟩ := words_pair_eq_some h
    have ih := words_length hvs
    simp only [List.length_cons]
    omega

theorem words_getElem? : ∀ {buf : List Byte} {ws : List Word16}, words buf = some ws →
    ∀ {i : Nat} {lo hi : Byte}, buf[2 * i]? = some lo → buf[2 * i + 1]? = some hi → ws[i]? = some (word lo hi)
  | [], _, _, _, _, _, hlo, _ => by simp at hlo
  | [_], _, h, _, _, _, _, _ => by cases h
  | _ :: _ :: rest, _, h, i, lo, hi, hlo, hhi => by
    obtain ⟨vs, hvs, rfl⟩ := words_pair_eq_some h
    cases i with
    | zero => cases hlo; cases hhi; rfl
    | succ i => exact words_getElem? hvs (i := i) hlo hhi

/-- Settles O39: each clause by the recursion of `words`, which takes two bytes at a time. -/
theorem wordsAreLittleEndianPairs : Obligations.WordsAreLittleEndianPairs :=
  ⟨word_toNat, words_eq_none_iff, fun _ _ h => ⟨words_length h, fun _ _ _ => words_getElem? h⟩⟩

/-! ### Decimal numerals (R15) -/

theorem digitChar_toNat {d : Nat} (h : d < 10) : (digitChar d).toNat = 0x30 + d := by
  rw [digitChar, BitVec.toNat_ofNat]
  omega

theorem digits_zero (fuel : Nat) : digits fuel 0 = [] := by
  cases fuel <;> rfl

/-- One division by ten: the last digit, and the digits of the quotient before it. -/
theorem digits_succ {v : Nat} (fuel : Nat) (h : v ≠ 0) :
    digits (fuel + 1) v = digits fuel (v / 10) ++ [digitChar (v % 10)] := by
  rw [digits, if_neg h]

theorem digits_length_le (fuel v : Nat) : (digits fuel v).length ≤ fuel := by
  induction fuel generalizing v with
  | zero => rfl
  | succ fuel ih =>
    by_cases h : v = 0
    · simp [h, digits_zero]
    · simpa [digits_succ fuel h] using ih (v / 10)

/-- The characters of a numeral are the digits 0 to 9. -/
theorem mem_digits_range {fuel v : Nat} {c : Byte} (hc : c ∈ digits fuel v) : 0x30 ≤ c.toNat ∧ c.toNat ≤ 0x39 := by
  induction fuel generalizing v with
  | zero => cases hc
  | succ fuel ih =>
    by_cases h : v = 0
    · simp [h, digits_zero] at hc
    · rw [digits_succ fuel h, List.mem_append, List.mem_singleton] at hc
      obtain hc | rfl := hc
      · exact ih hc
      · rw [digitChar_toNat (Nat.mod_lt v (by decide))]
        omega

/-- Read in base ten, the digits give the number back when the divisions were enough for it. -/
theorem digits_value {fuel v : Nat} (hv : v < 10 ^ fuel) :
    (digits fuel v).foldl (fun n c => 10 * n + (c.toNat - 0x30)) 0 = v := by
  induction fuel generalizing v with
  | zero => rw [pow_zero, Nat.lt_one_iff] at hv; rw [hv]; rfl
  | succ fuel ih =>
    by_cases h : v = 0
    · simp [h, digits_zero]
    · have hq : v / 10 < 10 ^ fuel := by rw [pow_succ] at hv; omega
      simp only [digits_succ fuel h, List.foldl_append, ih hq, List.foldl_cons, List.foldl_nil,
        digitChar_toNat (Nat.mod_lt v (by decide : 10 > 0))]
      omega

theorem digits_ne_nil {fuel v : Nat} (h : v ≠ 0) : digits (fuel + 1) v ≠ [] := by
  simp [digits_succ fuel h]

/-- Only the number 0 has the digit 0 as its character. -/
theorem digitChar_ne_zero {d : Nat} (hd : d < 10) (h : d ≠ 0) : digitChar d ≠ 0x30#8 := by
  intro hz
  have hval : 0x30 + d = (0x30#8).toNat := digitChar_toNat hd ▸ congrArg BitVec.toNat hz
  exact h (Nat.add_left_cancel hval)

/-- No leading zero: the first digit is the last quotient that is not 0. -/
theorem digits_head?_ne_zero {fuel v : Nat} (hv : v < 10 ^ fuel) : (digits fuel v).head? ≠ some 0x30#8 := by
  induction fuel generalizing v with
  | zero => simp [digits]
  | succ fuel ih =>
    by_cases h : v = 0
    · simp [h, digits_zero]
    · have hq : v / 10 < 10 ^ fuel := by rw [pow_succ] at hv; omega
      rw [digits_succ fuel h]
      by_cases hq0 : v / 10 = 0
      · simpa [hq0, digits_zero] using digitChar_ne_zero (Nat.mod_lt v (by decide)) (by omega : v % 10 ≠ 0)
      · cases fuel with
        | zero => exact absurd (Nat.lt_one_iff.mp hq) hq0
        | succ n =>
          rw [List.head?_append_of_ne_nil _ (digits_ne_nil hq0)]
          exact ih hq

theorem dec_zero : dec 0#16 = [0x30#8] := rfl

theorem dec_of_ne_zero {w : Word16} (h : w ≠ 0#16) : dec w = digits 5 w.toNat := if_neg h

theorem dec_length_le (w : Word16) : (dec w).length ≤ 5 := by
  by_cases h : w = 0#16
  · simp [h, dec_zero]
  · simpa [dec_of_ne_zero h] using digits_length_le 5 w.toNat

/-- Settles O40: the digits of a nonzero word by the divisions of `digits`, of which five are enough for 16 bits. -/
theorem decIsTheDecimalNumeral : Obligations.DecIsTheDecimalNumeral := by
  intro w
  by_cases h : w = 0#16
  · simp [h, dec_zero]
  · have hv : w.toNat < 10 ^ 5 := by have := w.isLt; omega
    have h0 : w.toNat ≠ 0 := fun h' => h (BitVec.eq_of_toNat_eq h')
    rw [dec_of_ne_zero h]
    exact ⟨digits_value hv, List.length_pos_iff.mpr (digits_ne_nil h0), digits_length_le 5 w.toNat,
      fun _ => mem_digits_range, fun hz => absurd hz (digits_head?_ne_zero hv), fun h' => absurd h' h⟩

/-! ### The literal (R16, R129) -/

theorem values_eq_intercalate : ∀ ws : List Word16, values ws = List.intercalate separator (ws.map dec)
  | [] => rfl
  | [w] => by rw [values, List.map_singleton, List.intercalate_singleton]
  | w :: v :: ws => by
    simp only [values, values_eq_intercalate (v :: ws), List.map_cons, List.intercalate_cons_cons]

theorem literal_eq_intercalate (ws : List Word16) :
    literal ws = [0x7B#8] ++ List.intercalate [0x2C#8, 0x20#8] (ws.map dec) ++ [0x7D#8] := by
  rw [literal, values_eq_intercalate]
  rfl

theorem values_length : ∀ ws : List Word16,
    (values ws).length = (ws.map (fun w => (dec w).length)).sum + 2 * (ws.length - 1)
  | [] => rfl
  | [w] => by simp [values]
  | w :: v :: ws => by
    have ih := values_length (v :: ws)
    simp only [values, separator, List.length_append, List.length_cons, List.length_nil, List.map_cons, List.sum_cons]
      at ih ⊢
    omega

theorem literal_length (ws : List Word16) :
    (literal ws).length = 2 + (ws.map (fun w => (dec w).length)).sum + 2 * (ws.length - 1) := by
  simp only [literal, List.length_append, List.length_singleton, values_length]
  omega

/-- Five characters a numeral at most (R15). -/
theorem sum_dec_length_le (ws : List Word16) : (ws.map (fun w => (dec w).length)).sum ≤ 5 * ws.length := by
  have := List.sum_le_card_nsmul (ws.map (fun w => (dec w).length)) 5 (by simpa using fun w _ => dec_length_le w)
  simpa [Nat.mul_comm] using this

/-- Settles O41: the form and the length by the recursion of `values`, the bound by the five characters of a numeral. -/
theorem literalHasTheDocumentsForm : Obligations.LiteralHasTheDocumentsForm := by
  refine ⟨literal_eq_intercalate, fun ws => ⟨literal_length ws, fun hm => ?_⟩⟩
  have hlen := literal_length ws
  have hsum := sum_dec_length_le ws
  omega

end Sys2Proof.Proofs
end

section
/-! PROOFS. What a step can do, case by case: the inputs a step takes, and for a word every transition its unit can make
with its guards (60_exceptions.md R143, R144, R147). -/

namespace Sys2Proof.Proofs

open Sys2Proof Sys2Proof.Machine

/-! ### The transitions of the two units -/

/-- Where a word named to BSP can take BSP from the state `s`. -/
inductive BspTransition (s : State) (w : Word) : Bsp → Prop
  | refused (h : ∀ i, decode w = .command i → admitted s i = false) :
      BspTransition s w { s.bs with ill := true }
  | ctclr (hd : decode w = .command .ctclr) (hp : s.bs.phase ≠ .run) :
      BspTransition s w { s.bs with ct := CodeTable.cleared, selV := false, selI := 0 }
  | ctsel {e : Byte} (hd : decode w = .command (.ctsel e)) (hp : s.bs.phase ≠ .run) :
      BspTransition s w { s.bs with ct := s.bs.ct.put e [], selV := true, selI := e }
  | ctbit {b : Bool} (hd : decode w = .command (.ctbit b)) (hp : s.bs.phase ≠ .run) (hv : s.bs.selV = true)
      (hlen : (s.bs.ct.lookup s.bs.selI).length < s.config.codeMax) :
      BspTransition s w { s.bs with ct := s.bs.ct.put s.bs.selI (s.bs.ct.lookup s.bs.selI ++ [b]) }
  | bsbeg (hd : decode w = .command .bsbeg) (hp : s.bs.phase ≠ .run) :
      BspTransition s w { clearBsp s.bs with phase := .run }
  | bssymAbsent {v : Byte} (hd : decode w = .command (.bssym v)) (hp : s.bs.phase = .run)
      (hv : s.bs.ct.lookup v = []) :
      BspTransition s w { s.bs with cause := .missingCodeEntry, fsym := v, phase := .fault }
  | bssymPresent {v : Byte} (hd : decode w = .command (.bssym v)) (hp : s.bs.phase = .run)
      (hv : s.bs.ct.lookup v ≠ []) :
      BspTransition s w (appendCode s.bs (s.bs.ct.lookup v))
  | bsend (hd : decode w = .command .bsend) (hp : s.bs.phase = .run) :
      BspTransition s w { flushTail s.bs with pad := padOfCnt s.bs.cnt, phase := .done }

/-- Where a word named to TWP can take TWP from the state `s`. -/
inductive TwpTransition (s : State) (w : Word) : Twp → Prop
  | refused (h : ∀ i, decode w = .command i → admitted s i = false) :
      TwpTransition s w { s.tw with ill := true }
  | twbegOdd {n : Count} (hd : decode w = .command (.twbeg n)) (hp : s.tw.phase ≠ .run) (hn : n.toNat % 2 = 1) :
      TwpTransition s w { clearTwp n s.tw with cause := .malformedTreeLength, phase := .fault }
  | twbegZero (hd : decode w = .command (.twbeg 0)) (hp : s.tw.phase ≠ .run) :
      TwpTransition s w { clearTwp 0 s.tw with txt := literal [], phase := .done }
  | twbegEven {n : Count} (hd : decode w = .command (.twbeg n)) (hp : s.tw.phase ≠ .run) (h0 : n ≠ 0)
      (hn : n.toNat % 2 = 0) :
      TwpTransition s w { clearTwp n s.tw with txt := openLiteral [], phase := .run }
  | twbyteLow {v : Byte} (hd : decode w = .command (.twbyte v)) (hp : s.tw.phase = .run) (hh : s.tw.haveLow = false) :
      TwpTransition s w { s.tw with low := v, haveLow := true, rem := s.tw.rem - 1 }
  | twbyteHigh {v : Byte} (hd : decode w = .command (.twbyte v)) (hp : s.tw.phase = .run) (hh : s.tw.haveLow = true) :
      TwpTransition s w (completePair v s.tw)

theorem bspTransition_of_exec {s t : State} {w : Word} {i : Instr} (hd : decode w = .command i) (hu : i.unit = .bsp)
    (he : exec i s = .next t) : BspTransition s w t.bs := by
  cases i with
  | ctclr =>
    simp only [exec, execCtclr] at he
    split_ifs at he with hp <;> cases he
    · exact .refused (by simp [hd, admitted, hp])
    · exact .ctclr hd hp
  | ctsel e =>
    simp only [exec, execCtsel] at he
    split_ifs at he with hp <;> cases he
    · exact .refused (by simp [hd, admitted, hp])
    · exact .ctsel hd hp
  | ctbit b =>
    simp only [exec, execCtbit] at he
    split_ifs at he with hp hv hlen <;> cases he
    · exact .refused (by simp [hd, admitted, hp])
    · exact .refused (by simp [hd, admitted, hv])
    · exact .refused (by simp [hd, admitted, hlen])
    · exact .ctbit hd hp (by simpa using hv) (by simpa using hlen)
  | bsbeg =>
    simp only [exec, execBsbeg] at he
    split_ifs at he with hp <;> cases he
    · exact .refused (by simp [hd, admitted, hp])
    · exact .bsbeg hd hp
  | bssym v =>
    simp only [exec, execBssym] at he
    split_ifs at he with hp hv <;> cases he
    · exact .refused (by simp [hd, admitted, hp])
    · exact .bssymAbsent hd (by simpa using hp) hv
    · exact .bssymPresent hd (by simpa using hp) hv
  | bsend =>
    simp only [exec, execBsend] at he
    split_ifs at he with hp <;> cases he
    · exact .refused (by simp [hd, admitted, hp])
    · exact .bsend hd (by simpa using hp)
  | twbeg n => cases hu
  | twbyte v => cases hu

/-- Bit 0 of a count is its parity (42_tree_word_packer.md R121). -/
theorem count_getLsbD_zero (n : Count) : n.getLsbD 0 = decide (n.toNat % 2 = 1) := by
  simp [BitVec.getLsbD, Nat.testBit_eq_decide_div_mod_eq]

theorem twpTransition_of_exec {s t : State} {w : Word} {i : Instr} (hd : decode w = .command i) (hu : i.unit = .twp)
    (he : exec i s = .next t) : TwpTransition s w t.tw := by
  cases i with
  | twbeg n =>
    simp only [exec, execTwbeg, count_getLsbD_zero, decide_eq_true_eq] at he
    split_ifs at he with hp hn h0 <;> cases he
    · exact .refused (by simp [hd, admitted, hp])
    · exact .twbegOdd hd hp hn
    · subst h0; exact .twbegZero hd hp
    · exact .twbegEven hd hp h0 (by omega)
  | twbyte v =>
    simp only [exec, execTwbyte] at he
    split_ifs at he with hp hh <;> cases he
    · exact .refused (by simp [hd, admitted, hp])
    · exact .twbyteLow hd (by simpa using hp) hh
    · exact .twbyteHigh hd (by simpa using hp) (by simpa using hh)
  | _ => cases hu

theorem bspTransition_of_wordEffect {s t : State} {w : Word} (hu : unitOf w = .bsp) (he : wordEffect w s = .next t) :
    BspTransition s w t.bs := by
  cases hd : decode w with
  | command i => exact bspTransition_of_exec hd (decode_unit hd ▸ hu) (wordEffect_command hd s ▸ he)
  | reserved u =>
    obtain rfl : u = .bsp := decode_reserved_unit hd ▸ hu
    cases wordEffect_reserved hd s ▸ he
    exact .refused (by simp [hd])

theorem twpTransition_of_wordEffect {s t : State} {w : Word} (hu : unitOf w = .twp) (he : wordEffect w s = .next t) :
    TwpTransition s w t.tw := by
  cases hd : decode w with
  | command i => exact twpTransition_of_exec hd (decode_unit hd ▸ hu) (wordEffect_command hd s ▸ he)
  | reserved u =>
    obtain rfl : u = .twp := decode_reserved_unit hd ▸ hu
    cases wordEffect_reserved hd s ▸ he
    exact .refused (by simp [hd])

/-- Every word named to BSP makes one of the transitions, in every state. -/
theorem bspWord_transition {w : Word} (hu : unitOf w = .bsp) (s : State) :
    BspTransition s w (bspWord s.config.codeMax s.bs w) :=
  bspTransition_of_wordEffect (t := { s with bs := bspWord s.config.codeMax s.bs w }) hu (wordEffect_bsp hu s)

/-- Every word named to TWP makes one of the transitions, in every state. -/
theorem twpWord_transition {w : Word} (hu : unitOf w = .twp) (s : State) : TwpTransition s w (twpWord s.tw w) :=
  twpTransition_of_wordEffect (t := { s with tw := twpWord s.tw w }) hu (wordEffect_twp hu s)

/-! ### The inputs of a step -/

/-- A step on a word is a transition of the unit the word names, and leaves the other unit and CODE_MAX as they are. -/
theorem step_word_cases {s t : State} {w : Word} {rest : List HostInput} (hin : s.inputs = .command w :: rest)
    (hstep : step s = .next t) :
    (unitOf w = .bsp ∧ BspTransition s w t.bs ∧ t.tw = s.tw ∧ t.config = s.config) ∨
    (unitOf w = .twp ∧ TwpTransition s w t.tw ∧ t.bs = s.bs ∧ t.config = s.config) := by
  rw [step_command hin] at hstep
  cases hu : unitOf w with
  | bsp =>
    rw [wordEffect_bsp hu] at hstep
    cases hstep
    exact .inl ⟨rfl, bspWord_transition hu s, rfl, rfl⟩
  | twp =>
    rw [wordEffect_twp hu] at hstep
    cases hstep
    exact .inr ⟨rfl, twpWord_transition hu s, rfl, rfl⟩

/-- What any step does to BSP: nothing, the reset, or a transition on a word. -/
theorem step_bsp_cases {s t : State} (hstep : step s = .next t) :
    t.config = s.config ∧ (t.bs = s.bs ∨ t.bs = Bsp.reset ∨ ∃ w, BspTransition s w t.bs) := by
  cases hin : s.inputs with
  | nil => rw [step_idle hin] at hstep; cases hstep; exact ⟨rfl, .inl rfl⟩
  | cons x rest =>
    cases x with
    | reset p => rw [step_reset hin] at hstep; cases hstep; exact ⟨rfl, .inr (.inl rfl)⟩
    | command w =>
      obtain ⟨-, htr, -, hc⟩ | ⟨-, -, hbs, hc⟩ := step_word_cases hin hstep
      · exact ⟨hc, .inr (.inr ⟨w, htr⟩)⟩
      · exact ⟨hc, .inl hbs⟩

/-- What any step does to TWP: nothing, the reset, or a transition on a word. -/
theorem step_twp_cases {s t : State} (hstep : step s = .next t) :
    t.tw = s.tw ∨ t.tw = Twp.reset ∨ ∃ w, TwpTransition s w t.tw := by
  cases hin : s.inputs with
  | nil => rw [step_idle hin] at hstep; cases hstep; exact .inl rfl
  | cons x rest =>
    cases x with
    | reset p => rw [step_reset hin] at hstep; cases hstep; exact .inr (.inl rfl)
    | command w =>
      obtain ⟨-, -, htw, -⟩ | ⟨-, htr, -, -⟩ := step_word_cases hin hstep
      · exact .inl htw
      · exact .inr (.inr ⟨w, htr⟩)

end Sys2Proof.Proofs
end

section
/-! PROOFS. The invariants of one step (10_state.md R45, R46), what a word appends to the streams, and what `ILL = 0` is
evidence of (10_state.md R28, R31, R32). -/

namespace Sys2Proof.Proofs

open Sys2Proof Sys2Proof.Machine

/-! ### The registers the bit writer leaves alone (41_bitstream_packer.md R101, R102, R105) -/

theorem appendCode_frame (u : Bsp) (c : Bits) :
    appendCode u c =
      { u with acc := (appendCode u c).acc, cnt := (appendCode u c).cnt, out := (appendCode u c).out } := by
  obtain ⟨-, -, -, h⟩ := appendCode_spec u c
  exact h

@[simp] theorem appendCode_ct (u : Bsp) (c : Bits) : (appendCode u c).ct = u.ct := by rw [appendCode_frame]
@[simp] theorem appendCode_phase (u : Bsp) (c : Bits) : (appendCode u c).phase = u.phase := by rw [appendCode_frame]
@[simp] theorem appendCode_pad (u : Bsp) (c : Bits) : (appendCode u c).pad = u.pad := by rw [appendCode_frame]
@[simp] theorem appendCode_cause (u : Bsp) (c : Bits) : (appendCode u c).cause = u.cause := by rw [appendCode_frame]
@[simp] theorem appendCode_ill (u : Bsp) (c : Bits) : (appendCode u c).ill = u.ill := by rw [appendCode_frame]

theorem appendCode_out_prefix (u : Bsp) (c : Bits) : u.out <+: (appendCode u c).out := by
  obtain ⟨h, -⟩ := appendCode_spec u c
  exact h ▸ List.prefix_append _ _

theorem appendCode_acc_lt {u : Bsp} (c : Bits) (h : u.acc.toNat < 2 ^ u.cnt.toNat) :
    (appendCode u c).acc.toNat < 2 ^ (appendCode u c).cnt.toNat := by
  obtain ⟨-, -, hacc, -⟩ := appendCode_spec u c
  exact hacc h

/-- The flush writes BS.ACC, BS.CNT and BS.OUT and nothing else. -/
theorem flushTail_frame (u : Bsp) :
    flushTail u = { u with acc := (flushTail u).acc, cnt := (flushTail u).cnt, out := (flushTail u).out } := by
  obtain ⟨-, h⟩ | ⟨-, h⟩ := flushTail_cases u <;> rw [h]

@[simp] theorem flushTail_ct (u : Bsp) : (flushTail u).ct = u.ct := by rw [flushTail_frame]
@[simp] theorem flushTail_cause (u : Bsp) : (flushTail u).cause = u.cause := by rw [flushTail_frame]
@[simp] theorem flushTail_ill (u : Bsp) : (flushTail u).ill = u.ill := by rw [flushTail_frame]

@[simp] theorem flushTail_cnt (u : Bsp) : (flushTail u).cnt = 0 := by
  obtain ⟨h0, h⟩ | ⟨-, h⟩ := flushTail_cases u <;> rw [h]
  exact h0

/-- With no bit above the held ones, the flush leaves BS.ACC empty. -/
theorem flushTail_acc {u : Bsp} (hacc : u.acc.toNat < 2 ^ u.cnt.toNat) : (flushTail u).acc = 0 := by
  obtain ⟨h0, h⟩ | ⟨-, h⟩ := flushTail_cases u <;> rw [h]
  rw [h0] at hacc
  exact BitVec.eq_of_toNat_eq (Nat.lt_one_iff.mp hacc)

theorem flushTail_out_prefix (u : Bsp) : u.out <+: (flushTail u).out := by
  obtain ⟨-, h⟩ | ⟨-, h⟩ := flushTail_cases u <;> rw [h]
  exact List.prefix_append _ _

/-! ### The BSP invariant (10_state.md R45) -/

theorem bspInv_reset (codeMax : Nat) : BspInv codeMax Bsp.reset where
  acc_lt := by decide
  fault_iff := by decide
  cause_none := fun _ => rfl
  idle := fun _ => ⟨rfl, rfl, rfl, rfl⟩
  done := nofun
  pad_zero := fun _ => rfl
  table := wf_cleared codeMax

/-- The code table commands write what the invariant bounds by CODE_MAX alone. -/
theorem bspInv_setTable {codeMax : Nat} {u : Bsp} (h : BspInv codeMax u) {ct : CodeTable} (hct : ct.wf codeMax)
    (selV : Bool) (selI : Byte) : BspInv codeMax { u with ct := ct, selV := selV, selI := selI } :=
  ⟨h.acc_lt, h.fault_iff, h.cause_none, h.idle, h.done, h.pad_zero, hct⟩

theorem bspInv_begin {codeMax : Nat} {u : Bsp} (h : BspInv codeMax u) :
    BspInv codeMax { clearBsp u with phase := .run } where
  acc_lt := by simp
  fault_iff := by simp
  cause_none := fun _ => rfl
  idle := nofun
  done := nofun
  pad_zero := fun _ => rfl
  table := h.table

theorem bspInv_fault {codeMax : Nat} {u : Bsp} (h : BspInv codeMax u) (hp : u.phase = .run) (v : Byte) :
    BspInv codeMax { u with cause := .missingCodeEntry, fsym := v, phase := .fault } where
  acc_lt := h.acc_lt
  fault_iff := by simp
  cause_none := fun hne => absurd rfl hne
  idle := nofun
  done := nofun
  pad_zero := fun _ => h.pad_zero (.inl hp)
  table := h.table

theorem bspInv_appendCode {codeMax : Nat} {u : Bsp} (h : BspInv codeMax u) (hp : u.phase = .run) (c : Bits) :
    BspInv codeMax (appendCode u c) where
  acc_lt := appendCode_acc_lt c h.acc_lt
  fault_iff := by simpa using h.fault_iff
  cause_none := by simpa using h.cause_none
  idle := by simp [hp]
  done := by simp [hp]
  pad_zero := by simpa using h.pad_zero
  table := by simpa using h.table

theorem bspInv_end {codeMax : Nat} {u : Bsp} (h : BspInv codeMax u) (hp : u.phase = .run) (pad : BitVec 3) :
    BspInv codeMax { flushTail u with pad := pad, phase := .done } where
  acc_lt := by simp [flushTail_acc h.acc_lt]
  fault_iff := by simp [h.cause_none (by simp [hp])]
  cause_none := by simp [h.cause_none (by simp [hp])]
  idle := nofun
  done := by simp [flushTail_acc h.acc_lt, h.cause_none (by simp [hp])]
  pad_zero := by simp
  table := by simpa using h.table

theorem BspTransition.keeps_inv {s : State} {w : Word} {u : Bsp} (htr : BspTransition s w u)
    (h : BspInv s.config.codeMax s.bs) : BspInv s.config.codeMax u := by
  cases htr with
  | refused _ => exact ⟨h.acc_lt, h.fault_iff, h.cause_none, h.idle, h.done, h.pad_zero, h.table⟩
  | ctclr _ _ => exact bspInv_setTable h (wf_cleared _) _ _
  | ctsel _ _ => exact bspInv_setTable h (wf_put h.table _ (Nat.zero_le _)) _ _
  | ctbit _ _ _ hlen => exact bspInv_setTable h (wf_put h.table _ (by simpa using hlen)) _ _
  | bsbeg _ _ => exact bspInv_begin h
  | bssymAbsent _ hp _ => exact bspInv_fault h hp _
  | bssymPresent _ hp _ => exact bspInv_appendCode h hp _
  | bsend _ hp => exact bspInv_end h hp _

/-- Settles O51: the reset state has the invariant and every transition keeps it. -/
theorem everyStepKeepsTheBspInvariant : Obligations.EveryStepKeepsTheBspInvariant := by
  intro s t h hstep
  obtain ⟨hc, hbs⟩ := step_bsp_cases hstep
  rw [hc]
  obtain hbs | hbs | ⟨w, htr⟩ := hbs
  · rwa [hbs]
  · exact hbs ▸ bspInv_reset _
  · exact htr.keeps_inv h

/-! ### The TWP invariant (10_state.md R46) -/

theorem twpInv_reset : TwpInv Twp.reset where
  fault_iff := by decide
  cause_none := fun _ => rfl
  run := nofun
  done := nofun
  fault := nofun
  idle := fun _ => ⟨rfl, rfl, rfl, rfl, rfl, rfl, rfl⟩

theorem twpInv_fault {n : Count} (hn : n.toNat % 2 = 1) (u : Twp) :
    TwpInv { clearTwp n u with cause := .malformedTreeLength, phase := .fault } where
  fault_iff := by simp
  cause_none := fun hne => absurd rfl hne
  run := nofun
  done := nofun
  fault := fun _ => ⟨hn, rfl, rfl, rfl, rfl⟩
  idle := nofun

theorem twpInv_beginEmpty (u : Twp) : TwpInv { clearTwp 0 u with txt := literal [], phase := .done } where
  fault_iff := by simp
  cause_none := fun _ => rfl
  run := nofun
  done := fun _ => ⟨rfl, rfl, rfl⟩
  fault := nofun
  idle := nofun

theorem twpInv_begin {n : Count} (h0 : n ≠ 0) (hn : n.toNat % 2 = 0) (u : Twp) :
    TwpInv { clearTwp n u with txt := openLiteral [], phase := .run } where
  fault_iff := by simp
  cause_none := fun _ => rfl
  run := fun _ =>
    ⟨Nat.one_le_iff_ne_zero.mpr fun h => h0 (BitVec.eq_of_toNat_eq h), by simp [hn], rfl, by simp⟩
  done := nofun
  fault := nofun
  idle := nofun

/-- Counting down the bytes still to come. -/
theorem rem_pred_toNat {r : Count} (h : 1 ≤ r.toNat) : (r - 1).toNat = r.toNat - 1 :=
  BitVec.toNat_sub_of_le h

theorem twpInv_low {u : Twp} (h : TwpInv u) (hp : u.phase = .run) (hh : u.haveLow = false) (v : Byte) :
    TwpInv { u with low := v, haveLow := true, rem := u.rem - 1 } where
  fault_iff := h.fault_iff
  cause_none := h.cause_none
  run := by
    obtain ⟨hrem, heven, htxt, hsep⟩ := h.run hp
    have := heven.mpr hh
    exact fun _ => ⟨by rw [rem_pred_toNat hrem]; omega, by rw [rem_pred_toNat hrem]; simp; omega, htxt, hsep⟩
  done := by simp [hp]
  fault := by simp [hp]
  idle := by simp [hp]

theorem twpInv_completePair {u : Twp} (h : TwpInv u) (hp : u.phase = .run) (hh : u.haveLow = true) (v : Byte) :
    TwpInv (completePair v u) := by
  obtain ⟨hrem, heven, htxt, hsep⟩ := h.run hp
  have hodd : u.rem.toNat % 2 ≠ 0 := fun h0 => by simp [heven.mp h0] at hh
  have hcause : u.cause = .none := h.cause_none (by simp [hp])
  have hren : renderWord u.sep u.txt (word u.low v) = openLiteral (u.wout ++ [word u.low v]) := by
    rw [htxt, renderWord_openLiteral hsep]
  obtain ⟨hlast, heq⟩ | ⟨hmore, heq⟩ := completePair_cases v u <;> rw [heq, hren]
  · exact
      { fault_iff := by simp [hcause]
        cause_none := fun _ => hcause
        run := nofun
        done := fun _ => ⟨hlast, rfl, rfl⟩
        fault := nofun
        idle := nofun }
  · have hmore' : (u.rem - 1).toNat ≠ 0 := fun h0 => hmore (BitVec.eq_of_toNat_eq h0)
    have hpred := rem_pred_toNat hrem
    exact
      { fault_iff := by simp [hcause, hp]
        cause_none := fun _ => hcause
        run := fun _ => ⟨Nat.one_le_iff_ne_zero.mpr hmore', by simp; omega, rfl, by simp⟩
        done := by simp [hp]
        fault := by simp [hp]
        idle := by simp [hp] }

theorem TwpTransition.keeps_inv {s : State} {w : Word} {u : Twp} (htr : TwpTransition s w u) (h : TwpInv s.tw) :
    TwpInv u := by
  cases htr with
  | refused _ => exact ⟨h.fault_iff, h.cause_none, h.run, h.done, h.fault, h.idle⟩
  | twbegOdd _ _ hn => exact twpInv_fault hn _
  | twbegZero _ _ => exact twpInv_beginEmpty _
  | twbegEven _ _ h0 hn => exact twpInv_begin h0 hn _
  | twbyteLow _ hp hh => exact twpInv_low h hp hh _
  | twbyteHigh _ hp hh => exact twpInv_completePair h hp hh _

/-- Settles O52: the reset state has the invariant and every transition keeps it. -/
theorem everyStepKeepsTheTwpInvariant : Obligations.EveryStepKeepsTheTwpInvariant := by
  intro s t h hstep
  obtain htw | htw | ⟨w, htr⟩ := step_twp_cases hstep
  · rwa [htw]
  · exact htw ▸ twpInv_reset
  · exact htr.keeps_inv h

/-! ### The reset state (10_state.md R44) -/

/-- Settles O8: the values of `Bsp.reset` and `Twp.reset`, the table entry by entry. -/
theorem resetStateHasTheListedValues : Obligations.ResetStateHasTheListedValues :=
  ⟨lookup_reset, rfl, rfl, rfl, rfl, rfl, rfl, rfl, rfl, rfl, rfl, rfl, rfl, rfl, rfl, rfl, rfl, rfl, rfl, rfl⟩

/-- Settles O50: the two units' invariants at reset. -/
theorem resetStateMeetsTheInvariants : Obligations.ResetStateMeetsTheInvariants :=
  ⟨⟨by decide, bspInv_reset _, twpInv_reset⟩, bspInv_reset⟩

/-! ### The open text (10_state.md R46 item 2) -/

theorem mem_dec_range {w : Word16} {c : Byte} (hc : c ∈ dec w) : 0x30 ≤ c.toNat ∧ c.toNat ≤ 0x39 := by
  obtain ⟨-, -, -, hrange, -⟩ := decIsTheDecimalNumeral w
  exact hrange c hc

/-- The characters between the braces are digits, commas and spaces. -/
theorem closeBrace_not_mem_values : ∀ ws : List Word16, closeBrace ∉ values ws
  | [] => List.not_mem_nil
  | [w] => fun h => absurd (mem_dec_range h) (by decide)
  | w :: v :: ws => by
    have hdec : closeBrace ∉ dec w := fun h => absurd (mem_dec_range h) (by decide)
    have hsep : closeBrace ∉ separator := by decide
    simp [values, hdec, hsep, closeBrace_not_mem_values (v :: ws)]

/-- Settles O53: the text is the open literal, whose one brace is its first character. -/
theorem openTextHasNoClosingBrace : Obligations.OpenTextHasNoClosingBrace := by
  intro u h hp
  obtain ⟨-, -, htxt, -⟩ := h.run hp
  rw [htxt]
  refine ⟨rfl, fun hmem => ?_⟩
  obtain hbrace | hval := List.mem_append.mp hmem
  · exact absurd hbrace (by decide)
  · exact closeBrace_not_mem_values _ hval

/-! ### Causes (10_state.md R31) -/

theorem BspTransition.cause_cases {s : State} {w : Word} {u : Bsp} (htr : BspTransition s w u) :
    u.cause = s.bs.cause ∨ u.cause = .none ∨ u.cause = .missingCodeEntry := by
  cases htr with
  | bsbeg _ _ => exact .inr (.inl rfl)
  | bssymAbsent _ _ _ => exact .inr (.inr rfl)
  | bssymPresent _ _ _ => exact .inl (appendCode_cause _ _)
  | bsend _ _ => exact .inl (flushTail_cause _)
  | _ => exact .inl rfl

@[simp] theorem completePair_cause (v : Byte) (u : Twp) : (completePair v u).cause = u.cause := by
  obtain ⟨-, h⟩ | ⟨-, h⟩ := completePair_cases v u <;> rw [h]

theorem TwpTransition.cause_cases {s : State} {w : Word} {u : Twp} (htr : TwpTransition s w u) :
    u.cause = s.tw.cause ∨ u.cause = .none ∨ u.cause = .malformedTreeLength := by
  cases htr with
  | twbegOdd _ _ _ => exact .inr (.inr rfl)
  | twbegZero _ _ => exact .inr (.inl rfl)
  | twbegEven _ _ _ _ => exact .inr (.inl rfl)
  | twbyteHigh _ _ _ => exact .inl (completePair_cause _ _)
  | _ => exact .inl rfl

theorem step_bsp_cause {s t : State} (hstep : step s = .next t)
    (h : s.bs.cause = .none ∨ s.bs.cause = .missingCodeEntry) : t.bs.cause = .none ∨ t.bs.cause = .missingCodeEntry := by
  obtain ⟨-, hbs | hbs | ⟨w, htr⟩⟩ := step_bsp_cases hstep
  · rwa [hbs]
  · exact hbs ▸ .inl rfl
  · obtain hc | hc := htr.cause_cases
    · rwa [hc]
    · exact hc

theorem step_twp_cause {s t : State} (hstep : step s = .next t)
    (h : s.tw.cause = .none ∨ s.tw.cause = .malformedTreeLength) :
    t.tw.cause = .none ∨ t.tw.cause = .malformedTreeLength := by
  obtain htw | htw | ⟨w, htr⟩ := step_twp_cases hstep
  · rwa [htw]
  · exact htw ▸ .inl rfl
  · obtain hc | hc := htr.cause_cases
    · rwa [hc]
    · exact hc

/-- Settles O48: a transition keeps the cause, clears it, or records the one fault of its unit. -/
theorem causesStayThoseOfTheirUnit : Obligations.CausesStayThoseOfTheirUnit := by
  intro s t hstep hbs htw
  refine ⟨(step_bsp_cause hstep hbs).imp ?_ ?_, (step_twp_cause hstep htw).imp ?_ ?_⟩ <;> intro h <;> rw [h] <;> rfl

/-! ### Streams (10_state.md R28, R37, R38) -/

theorem BspTransition.out_prefix {s : State} {w : Word} {u : Bsp} (htr : BspTransition s w u) :
    s.bs.out <+: u.out ∨ (decode w = .command .bsbeg ∧ s.bs.phase ≠ .run ∧ u.out = []) := by
  cases htr with
  | bsbeg hd hp => exact .inr ⟨hd, hp, rfl⟩
  | bssymPresent _ _ _ => exact .inl (appendCode_out_prefix _ _)
  | bsend _ _ => exact .inl (flushTail_out_prefix _)
  | _ => exact .inl (List.prefix_refl _)

theorem prefix_renderWord (sep : Bool) (txt : List Byte) (w : Word16) : txt <+: renderWord sep txt w := by
  rw [renderWord_eq, List.append_assoc]
  exact List.prefix_append _ _

theorem completePair_streams_prefix (v : Byte) (u : Twp) :
    u.wout <+: (completePair v u).wout ∧ u.txt <+: (completePair v u).txt := by
  obtain ⟨-, h⟩ | ⟨-, h⟩ := completePair_cases v u <;> rw [h]
  · exact ⟨List.prefix_append _ _, (prefix_renderWord _ _ _).trans (List.prefix_append _ _)⟩
  · exact ⟨List.prefix_append _ _, prefix_renderWord _ _ _⟩

theorem TwpTransition.streams_prefix {s : State} {w : Word} {u : Twp} (htr : TwpTransition s w u) :
    (s.tw.wout <+: u.wout ∧ s.tw.txt <+: u.txt) ∨
      (∃ n, decode w = .command (.twbeg n) ∧ s.tw.phase ≠ .run ∧ u.wout = []) := by
  cases htr with
  | twbegOdd hd hp _ => exact .inr ⟨_, hd, hp, rfl⟩
  | twbegZero hd hp => exact .inr ⟨_, hd, hp, rfl⟩
  | twbegEven hd hp _ _ => exact .inr ⟨_, hd, hp, rfl⟩
  | twbyteHigh _ _ _ => exact .inl (completePair_streams_prefix _ _)
  | _ => exact .inl ⟨List.prefix_refl _, List.prefix_refl _⟩

/-- Settles O46: the unit the word names makes a transition, and the other keeps its streams. -/
theorem streamsOnlyGrowWithinARun : Obligations.StreamsOnlyGrowWithinARun := by
  intro s t w rest hin hstep
  obtain ⟨-, htr, htw, -⟩ | ⟨-, htr, hbs, -⟩ := step_word_cases hin hstep
  · rw [htw]
    exact ⟨htr.out_prefix, .inl ⟨List.prefix_refl _, List.prefix_refl _⟩⟩
  · rw [hbs]
    exact ⟨.inl (List.prefix_refl _), htr.streams_prefix⟩

/-! ### Refusal flags and word sequences (10_state.md R32, R47) -/

/-- A BSP word after which BS.ILL = 0 found it 0 and was an admitted command. -/
theorem BspTransition.executed {s : State} {w : Word} {u : Bsp} (htr : BspTransition s w u) (hill : u.ill = false) :
    s.bs.ill = false ∧ ∃ i, decode w = .command i ∧ admitted s i = true := by
  cases htr with
  | refused _ => cases hill
  | ctclr hd hp => exact ⟨hill, _, hd, by simp [admitted, hp]⟩
  | ctsel hd hp => exact ⟨hill, _, hd, by simp [admitted, hp]⟩
  | ctbit hd hp hv hlen => exact ⟨hill, _, hd, by simp [admitted, hp, hv, hlen]⟩
  | bsbeg hd hp => exact ⟨hill, _, hd, by simp [admitted, hp]⟩
  | bssymAbsent hd hp _ => exact ⟨hill, _, hd, by simp [admitted, hp]⟩
  | bssymPresent hd hp _ => exact ⟨by simpa using hill, _, hd, by simp [admitted, hp]⟩
  | bsend hd hp => exact ⟨by simpa using hill, _, hd, by simp [admitted, hp]⟩

@[simp] theorem completePair_ill (v : Byte) (u : Twp) : (completePair v u).ill = u.ill := by
  obtain ⟨-, h⟩ | ⟨-, h⟩ := completePair_cases v u <;> rw [h]

/-- A TWP word after which TW.ILL = 0 found it 0 and was an admitted command. -/
theorem TwpTransition.executed {s : State} {w : Word} {u : Twp} (htr : TwpTransition s w u) (hill : u.ill = false) :
    s.tw.ill = false ∧ ∃ i, decode w = .command i ∧ admitted s i = true := by
  cases htr with
  | refused _ => cases hill
  | twbegOdd hd hp _ => exact ⟨hill, _, hd, by simp [admitted, hp]⟩
  | twbegZero hd hp => exact ⟨hill, _, hd, by simp [admitted, hp]⟩
  | twbegEven hd hp _ _ => exact ⟨hill, _, hd, by simp [admitted, hp]⟩
  | twbyteLow hd hp _ => exact ⟨hill, _, hd, by simp [admitted, hp]⟩
  | twbyteHigh hd hp _ => exact ⟨by simpa using hill, _, hd, by simp [admitted, hp]⟩

theorem unitOf_of_mem_wordsFor {u : UnitId} {ws : List Word} {w : Word} (h : w ∈ wordsFor u ws) : unitOf w = u := by
  simpa using List.of_mem_filter h

theorem wordsFor_append_cons {u : UnitId} {w : Word} (hu : unitOf w = u) (pre post : List Word) :
    wordsFor u (pre ++ w :: post) = wordsFor u pre ++ w :: wordsFor u post := by
  simp [wordsFor, hu]

@[simp] theorem wordsFor_wordsFor (u : UnitId) (ws : List Word) : wordsFor u (wordsFor u ws) = wordsFor u ws := by
  simp [wordsFor]

/-- BSP alone in a state, for the laws that speak of a whole state. -/
def bspState (codeMax : Nat) (u : Bsp) : State := { State.reset with bs := u, config := { codeMax := codeMax } }

/-- TWP alone in a state. -/
def twpState (u : Twp) : State := { State.reset with tw := u }

theorem foldl_bspWord_ill {codeMax : Nat} {ws : List Word} (hws : ∀ w ∈ ws, unitOf w = .bsp) {u : Bsp}
    (hill : (ws.foldl (bspWord codeMax) u).ill = false) : u.ill = false := by
  induction ws generalizing u with
  | nil => exact hill
  | cons w ws ih =>
    have hw := ih (fun x hx => hws x (List.mem_cons_of_mem w hx)) hill
    obtain ⟨hu, -⟩ := (bspWord_transition (hws w List.mem_cons_self) (bspState codeMax u)).executed hw
    exact hu

theorem foldl_twpWord_ill {ws : List Word} (hws : ∀ w ∈ ws, unitOf w = .twp) {u : Twp}
    (hill : (ws.foldl twpWord u).ill = false) : u.ill = false := by
  induction ws generalizing u with
  | nil => exact hill
  | cons w ws ih =>
    have hw := ih (fun x hx => hws x (List.mem_cons_of_mem w hx)) hill
    obtain ⟨hu, -⟩ := (twpWord_transition (hws w List.mem_cons_self) (twpState u)).executed hw
    exact hu

/-- Settles O12: an ILL bit is sticky over the words that follow, and the word before them was executed. -/
theorem clearIllMeansEveryWordWasExecuted : Obligations.ClearIllMeansEveryWordWasExecuted := by
  intro pre post w s t hrun
  rw [runWords_eq] at hrun
  cases hrun
  refine ⟨_, runWords_eq pre s, fun hu hill => ?_, fun hu hill => ?_⟩
  · rw [wordsFor_append_cons hu, List.foldl_append, List.foldl_cons] at hill
    exact (bspWord_transition hu _).executed (foldl_bspWord_ill (fun _ => unitOf_of_mem_wordsFor) hill)
  · rw [wordsFor_append_cons hu, List.foldl_append, List.foldl_cons] at hill
    exact (twpWord_transition hu _).executed (foldl_twpWord_ill (fun _ => unitOf_of_mem_wordsFor) hill)

/-- Settles O45: each run is the fold of each unit's words, and a unit's words are the same in its own sequence. -/
theorem interleavingLeavesEachUnitItsOwnResult : Obligations.InterleavingLeavesEachUnitItsOwnResult := by
  intro ws s
  exact ⟨_, _, _, runWords_eq ws s, runWords_eq _ s, runWords_eq _ s, by simp, by simp⟩

end Sys2Proof.Proofs
end

section
/-! PROOFS. The fields of the status registers (10_state.md R39 to R42). -/

namespace Sys2Proof.Proofs

open Sys2Proof Sys2Proof.Machine

/-! ### Reading one field of a register -/

/-- Reading the bits a field fills gives its value. -/
theorem field_extract_self {width : Nat} (lo : Nat) (v : BitVec width) (h : lo + width ≤ 32) :
    (field lo v).extractLsb' lo width = v := by
  apply BitVec.eq_of_getLsbD_eq
  intro i hi
  have : lo + i < 32 := by omega
  simp [-BitVec.getLsbD_eq_getElem, field_getLsbD, hi, this]

/-- A field leaves every bit below it and above it 0. -/
theorem field_getLsbD_other {width : Nat} (lo : Nat) (v : BitVec width) (i : Nat) (h : i < lo ∨ lo + width ≤ i) :
    (field lo v).getLsbD i = false := by
  rw [field_getLsbD]
  obtain h | h := h
  · simp [Nat.not_le.mpr h]
  · simp [BitVec.getLsbD_of_ge v (i - lo) (by omega)]

theorem field_extract_other {width : Nat} (lo : Nat) (v : BitVec width) (start len : Nat)
    (h : start + len ≤ lo ∨ lo + width ≤ start) : (field lo v).extractLsb' start len = 0#len := by
  apply BitVec.eq_of_getLsbD_eq
  intro i hi
  simp [field_getLsbD_other lo v (start + i) (by omega)]

/-- A one-bit field. -/
theorem field_getLsbD_self (lo : Nat) (b : Bool) (h : lo < 32) : (field lo (BitVec.ofBool b)).getLsbD lo = b := by
  simp [-BitVec.getLsbD_eq_getElem, field_getLsbD, h]

/-! ### BS_STAT and CT_SEL (R39, R40) -/

theorem bsStat_phase (s : State) : (bsStat s).extractLsb' 0 2 = s.bs.phase.code := by
  simp [bsStat, BitVec.extractLsb'_or, field_extract_self, field_extract_other]
theorem bsStat_ill (s : State) : (bsStat s).getLsbD 2 = s.bs.ill := by
  simp [-BitVec.getLsbD_eq_getElem, bsStat, field_getLsbD_self, field_getLsbD_other]
theorem bsStat_cause (s : State) : (bsStat s).extractLsb' 3 3 = s.bs.cause.code := by
  simp [bsStat, BitVec.extractLsb'_or, field_extract_self, field_extract_other]
theorem bsStat_cnt (s : State) : (bsStat s).extractLsb' 6 3 = s.bs.cnt := by
  simp [bsStat, BitVec.extractLsb'_or, field_extract_self, field_extract_other]
theorem bsStat_pad (s : State) : (bsStat s).extractLsb' 9 3 = s.bs.pad := by
  simp [bsStat, BitVec.extractLsb'_or, field_extract_self, field_extract_other]
theorem bsStat_acc (s : State) : (bsStat s).extractLsb' 12 8 = s.bs.acc := by
  simp [bsStat, BitVec.extractLsb'_or, field_extract_self, field_extract_other]
theorem bsStat_fsym (s : State) : (bsStat s).extractLsb' 20 8 = s.bs.fsym := by
  simp [bsStat, BitVec.extractLsb'_or, field_extract_self, field_extract_other]
theorem bsStat_reserved (s : State) : (bsStat s).extractLsb' 28 4 = 0#4 := by
  simp [bsStat, BitVec.extractLsb'_or, field_extract_other]
theorem ctSel_index (s : State) : (ctSel s).extractLsb' 0 8 = s.bs.selI := by
  simp [ctSel, BitVec.extractLsb'_or, field_extract_self, field_extract_other]
theorem ctSel_valid (s : State) : (ctSel s).getLsbD 8 = s.bs.selV := by
  simp [-BitVec.getLsbD_eq_getElem, ctSel, field_getLsbD_self, field_getLsbD_other]
theorem ctSel_reserved (s : State) : (ctSel s).extractLsb' 9 23 = 0#23 := by
  simp [ctSel, BitVec.extractLsb'_or, field_extract_other]

/-- Settles O42: field by field, each the one of the register's fields that fills the bits read. -/
theorem bspStatusRegisters : Obligations.BspStatusRegisters := by
  refine ⟨fun s => ⟨bsStat s, ctSel s, rfl, rfl, ?_, ?_, ?_, ?_, bsStat_ill s, bsStat_cause s, ?_, ?_, bsStat_cnt s,
    bsStat_pad s, bsStat_acc s, bsStat_fsym s, bsStat_reserved s, ctSel_index s, ctSel_valid s, ctSel_reserved s⟩,
    rfl, rfl⟩
  iterate 4 intro hp; rw [bsStat_phase, hp]; rfl
  iterate 2 intro hc; rw [bsStat_cause, hc]; rfl

/-! ### TW_STAT and TW_REM (R41, R42) -/

theorem twStat_phase (s : State) : (twStat s).extractLsb' 0 2 = s.tw.phase.code := by
  simp [twStat, BitVec.extractLsb'_or, field_extract_self, field_extract_other]
theorem twStat_ill (s : State) : (twStat s).getLsbD 2 = s.tw.ill := by
  simp [-BitVec.getLsbD_eq_getElem, twStat, field_getLsbD_self, field_getLsbD_other]
theorem twStat_cause (s : State) : (twStat s).extractLsb' 3 3 = s.tw.cause.code := by
  simp [twStat, BitVec.extractLsb'_or, field_extract_self, field_extract_other]
theorem twStat_haveLow (s : State) : (twStat s).getLsbD 6 = s.tw.haveLow := by
  simp [-BitVec.getLsbD_eq_getElem, twStat, field_getLsbD_self, field_getLsbD_other]
theorem twStat_sep (s : State) : (twStat s).getLsbD 7 = s.tw.sep := by
  simp [-BitVec.getLsbD_eq_getElem, twStat, field_getLsbD_self, field_getLsbD_other]
theorem twStat_low (s : State) : (twStat s).extractLsb' 8 8 = s.tw.low := by
  simp [twStat, BitVec.extractLsb'_or, field_extract_self, field_extract_other]
theorem twStat_reserved (s : State) : (twStat s).extractLsb' 16 16 = 0#16 := by
  simp [twStat, BitVec.extractLsb'_or, field_extract_other]

theorem readStatus_none {n : Nat} (h : (2 ≤ n ∧ n ≤ 7) ∨ 10 ≤ n) (s : State) : readStatus n s = none := by
  have h0 : n ≠ 0 ∧ n ≠ 1 ∧ n ≠ 8 ∧ n ≠ 9 := by omega
  simp [readStatus, h0]

/-- Settles O43: field by field, each the one of the register's fields that fills the bits read. -/
theorem twpStatusRegisters : Obligations.TwpStatusRegisters := by
  refine ⟨fun s => ⟨twStat s, twRem s, rfl, rfl, ?_, ?_, ?_, ?_, twStat_ill s, twStat_cause s, ?_, ?_, twStat_haveLow s,
    twStat_sep s, twStat_low s, twStat_reserved s, field_extract_self 0 s.tw.rem (by decide),
    field_extract_other 0 s.tw.rem 24 8 (by decide)⟩, rfl, rfl, fun _ s h => readStatus_none h s⟩
  iterate 4 intro hp; rw [twStat_phase, hp]; rfl
  iterate 2 intro hc; rw [twStat_cause, hc]; rfl

end Sys2Proof.Proofs
end

section
/-! PROOFS. What a run in progress holds (10_state.md R45 item 5, R46 item 6; 41_bitstream_packer.md R107;
42_tree_word_packer.md R125, R128). -/

namespace Sys2Proof.Proofs

open Sys2Proof Sys2Proof.Machine

/-! ### A command's word decodes to the command (30_encoding.md R77) -/

/-- An operand of at most 24 bits leaves the opcode of the match value. -/
theorem opcodeOf_match_or {n : Nat} (m : Word) (v : BitVec n) (hn : n ≤ 24) :
    opcodeOf (m ||| v.zeroExtend 32) = opcodeOf m := by
  apply BitVec.eq_of_getLsbD_eq
  intro i hi
  simp [-BitVec.getLsbD_eq_getElem, opcodeOf, hi, BitVec.getLsbD_of_ge v (24 + i) (by omega)]

/-- The operand is all of ARG where the match value has none. -/
theorem argOf_match_or {n : Nat} {m : Word} (hm : argOf m = 0) (v : BitVec n) :
    argOf (m ||| v.zeroExtend 32) = v.zeroExtend 24 := by
  rw [argOf] at hm
  rw [argOf, BitVec.extractLsb'_or, hm, BitVec.ofNat_eq_ofNat, BitVec.zero_or]
  apply BitVec.eq_of_getLsbD_eq
  intro i hi
  have : i < 32 := by omega
  simp [-BitVec.getLsbD_eq_getElem, hi, this]

theorem aboveByte_zeroExtend (v : Byte) : aboveByte (v.zeroExtend 24) = 0 := by
  have := v.isLt
  rw [aboveByte_eq_zero, BitVec.toNat_setWidth]
  omega

theorem byteOperand_zeroExtend (v : Byte) : byteOperand (v.zeroExtend 24) = v := by
  have := v.isLt
  apply BitVec.eq_of_toNat_eq
  simp
  omega

theorem decode_encode (i : Instr) : decode (encode i) = .command i := by
  cases i with
  | ctclr => rfl
  | ctbit b => cases b <;> rfl
  | bsbeg => rfl
  | bsend => rfl
  | ctsel v =>
    have hop : opcodeOf (encode (.ctsel v)) = 0x02 := opcodeOf_match_or _ v (by decide)
    have harg : argOf (encode (.ctsel v)) = v.zeroExtend 24 := argOf_match_or rfl v
    simp [decode, hop, harg, aboveByte_zeroExtend, byteOperand_zeroExtend]
  | bssym v =>
    have hop : opcodeOf (encode (.bssym v)) = 0x05 := opcodeOf_match_or _ v (by decide)
    have harg : argOf (encode (.bssym v)) = v.zeroExtend 24 := argOf_match_or rfl v
    simp [decode, hop, harg, aboveByte_zeroExtend, byteOperand_zeroExtend]
  | twbeg n =>
    have hop : opcodeOf (encode (.twbeg n)) = 0x81 := opcodeOf_match_or _ n (by decide)
    have harg : argOf (encode (.twbeg n)) = n.zeroExtend 24 := argOf_match_or rfl n
    simp [decode, hop, harg, countOperand]
  | twbyte v =>
    have hop : opcodeOf (encode (.twbyte v)) = 0x82 := opcodeOf_match_or _ v (by decide)
    have harg : argOf (encode (.twbyte v)) = v.zeroExtend 24 := argOf_match_or rfl v
    simp [decode, hop, harg, aboveByte_zeroExtend, byteOperand_zeroExtend]

theorem unitOf_encode (i : Instr) : unitOf (encode i) = i.unit := decode_unit (decode_encode i)

/-! ### BSP: the code string as it is appended (R45 item 5, R107) -/

/-- The effect of a BSP command's word is read off the command's meaning. -/
theorem bspWord_encode {codeMax : Nat} {u v : Bsp} {i : Instr} (hu : i.unit = .bsp)
    (he : exec i (bspState codeMax u) = .next (bspState codeMax v)) : bspWord codeMax u (encode i) = v := by
  have h := wordEffect_bsp ((unitOf_encode i).trans hu) (bspState codeMax u)
  rw [wordEffect_command (decode_encode i), he, Host.Outcome.next.injEq] at h
  exact (congrArg State.bs h).symm

theorem bspWord_bsbeg {codeMax : Nat} {u : Bsp} (hp : u.phase ≠ .run) :
    bspWord codeMax u (encode .bsbeg) = { clearBsp u with phase := .run } :=
  bspWord_encode rfl (if_neg hp)

theorem bspWord_bssym {codeMax : Nat} {u : Bsp} {v : Byte} (hp : u.phase = .run) (hv : u.ct.lookup v ≠ []) :
    bspWord codeMax u (encode (.bssym v)) = appendCode u (u.ct.lookup v) :=
  bspWord_encode rfl ((if_neg (not_not.mpr hp)).trans (if_neg hv))

theorem bitseq_cons_eq_some {t : CodeTable} {v : Byte} {vs : List Byte} {b : Bits} (h : bitseq t (v :: vs) = some b) :
    t.lookup v ≠ [] ∧ ∃ c, bitseq t vs = some c ∧ b = t.lookup v ++ c := by
  rw [bitseq] at h
  split_ifs at h with hv
  obtain ⟨c, hc, rfl⟩ := Option.map_eq_some_iff.mp h
  exact ⟨hv, c, hc, rfl⟩

theorem appendCode_append (u : Bsp) (c d : Bits) : appendCode u (c ++ d) = appendCode (appendCode u c) d :=
  List.foldl_append

/-- The BSSYMs of a covered input append its code string. -/
theorem foldl_bssym {codeMax : Nat} {input : List Byte} {u : Bsp} {b : Bits} (hp : u.phase = .run)
    (hb : bitseq u.ct input = some b) :
    (wordsOf (input.map .bssym)).foldl (bspWord codeMax) u = appendCode u b := by
  induction input generalizing u b with
  | nil => cases hb; rfl
  | cons v vs ih =>
    obtain ⟨hv, c, hc, rfl⟩ := bitseq_cons_eq_some hb
    have hrest := ih (u := appendCode u (u.ct.lookup v)) (by simpa using hp) (by simpa using hc)
    rw [appendCode_append, ← hrest, ← bspWord_bssym (codeMax := codeMax) hp hv]
    rfl

/-- BSBEG and the BSSYMs of a covered input append its code string to the cleared unit. -/
theorem foldl_bsbeg_bssym {codeMax : Nat} {input : List Byte} {u : Bsp} {b : Bits} (hp : u.phase ≠ .run)
    (hb : bitseq u.ct input = some b) :
    (wordsOf (.bsbeg :: input.map .bssym)).foldl (bspWord codeMax) u =
      appendCode { clearBsp u with phase := .run } b := by
  rw [← foldl_bssym (codeMax := codeMax) (u := { clearBsp u with phase := .run }) rfl hb, ← bspWord_bsbeg hp]
  rfl

/-- Settles O26: the run appends the code string to a unit that holds no bit, and `appendCode` emits its full groups. -/
theorem runInProgressHoldsTheCodeString : Obligations.RunInProgressHoldsTheCodeString := by
  intro ws input s b hp hws hb
  refine ⟨_, runWords_eq ws s, ?_⟩
  rw [hws, foldl_bsbeg_bssym hp hb]
  obtain ⟨hout, hheld, hacc, -⟩ := appendCode_spec { clearBsp s.bs with phase := .run } b
  have hcnt := appendCode_cnt { clearBsp s.bs with phase := .run } b
  have hval := acc_eq_held (hacc (by simp))
  exact ⟨by simp, hout, hheld, by simpa using hcnt, hval.trans (congrArg natOfBits hheld), by simp, by simp, by simp⟩

/-! ### TWP: the pairs as they arrive (R46 item 6, R125, R128) -/

/-- The effect of a TWP command's word is read off the command's meaning. -/
theorem twpWord_encode {u v : Twp} {i : Instr} (hu : i.unit = .twp)
    (he : exec i (twpState u) = .next (twpState v)) : twpWord u (encode i) = v := by
  have h := wordEffect_twp ((unitOf_encode i).trans hu) (twpState u)
  rw [wordEffect_command (decode_encode i), he, Host.Outcome.next.injEq] at h
  exact (congrArg State.tw h).symm

theorem twpWord_twbeg {u : Twp} {n : Count} (hp : u.phase ≠ .run) (h0 : n ≠ 0) (hn : n.toNat % 2 = 0) :
    twpWord u (encode (.twbeg n)) = { clearTwp n u with txt := openLiteral [], phase := .run } := by
  have heven : ¬ n.getLsbD 0 = true := by rw [count_getLsbD_zero, hn]; decide
  exact twpWord_encode rfl ((if_neg hp).trans ((if_neg heven).trans (if_neg h0)))

theorem twpWord_twbyte_low {u : Twp} (hp : u.phase = .run) (hh : u.haveLow = false) (v : Byte) :
    twpWord u (encode (.twbyte v)) = { u with low := v, haveLow := true, rem := u.rem - 1 } :=
  twpWord_encode rfl ((if_neg (not_not.mpr hp)).trans (if_pos hh))

theorem twpWord_twbyte_high {u : Twp} (hp : u.phase = .run) (hh : u.haveLow = true) (v : Byte) :
    twpWord u (encode (.twbyte v)) = completePair v u :=
  twpWord_encode rfl ((if_neg (not_not.mpr hp)).trans (if_neg (Bool.not_eq_false _ ▸ hh)))

/-- The unit after a pair that is not the last one. -/
def afterPair (lo hi : Byte) (u : Twp) : Twp :=
  { u with
    low := lo
    wout := u.wout ++ [word lo hi]
    txt := renderWord u.sep u.txt (word lo hi)
    sep := true
    haveLow := false
    rem := u.rem - 1 - 1 }

theorem afterPair_rem_toNat {u : Twp} (hrem : 2 ≤ u.rem.toNat) (lo hi : Byte) :
    (afterPair lo hi u).rem.toNat = u.rem.toNat - 2 := by
  have hpred := rem_pred_toNat (r := u.rem) (by omega)
  rw [afterPair, rem_pred_toNat (by omega), hpred]
  rfl

theorem twpWord_pair {u : Twp} (hp : u.phase = .run) (hh : u.haveLow = false) (hrem : 2 < u.rem.toNat) (lo hi : Byte) :
    twpWord (twpWord u (encode (.twbyte lo))) (encode (.twbyte hi)) = afterPair lo hi u := by
  have hmore : u.rem - 1 - 1 ≠ 0 := fun h0 => by
    have := afterPair_rem_toNat hrem.le lo hi
    rw [afterPair, h0] at this
    simp at this
    omega
  rw [twpWord_twbyte_low hp hh, twpWord_twbyte_high (u := { u with low := lo, haveLow := true, rem := u.rem - 1 }) hp rfl]
  obtain ⟨hlast, -⟩ | ⟨-, heq⟩ := completePair_cases hi { u with low := lo, haveLow := true, rem := u.rem - 1 }
  · exact absurd hlast hmore
  · exact heq

/-- How far the bytes of `buf` take a run that was at `u` and now is at `t`. -/
structure TwpProgress (u : Twp) (buf : List Byte) (t : Twp) : Prop where
  phase : t.phase = .run
  rem : t.rem.toNat = u.rem.toNat - buf.length
  wout : ∃ vs, words (buf.take (2 * (buf.length / 2))) = some vs ∧ t.wout = u.wout ++ vs
  low : buf.length % 2 = 1 → buf.getLast? = some t.low
  ill : t.ill = u.ill

theorem take_pairs_cons (lo hi : Byte) (rest : List Byte) :
    (lo :: hi :: rest).take (2 * ((lo :: hi :: rest).length / 2)) = lo :: hi :: rest.take (2 * (rest.length / 2)) := by
  have : (rest.length + 1 + 1) / 2 = rest.length / 2 + 1 := Nat.add_div_right rest.length Nat.two_pos
  simp [this, Nat.mul_succ]

theorem TwpProgress.cons_pair {u t : Twp} {lo hi : Byte} {rest : List Byte} (hrem : 2 ≤ u.rem.toNat)
    (h : TwpProgress (afterPair lo hi u) rest t) : TwpProgress u (lo :: hi :: rest) t where
  phase := h.phase
  rem := by
    have := h.rem
    rw [afterPair_rem_toNat hrem] at this
    simp only [List.length_cons]
    omega
  wout := by
    obtain ⟨vs, hvs, hw⟩ := h.wout
    exact ⟨word lo hi :: vs, by rw [take_pairs_cons, words, hvs]; rfl, by simp [hw, afterPair]⟩
  low := fun hodd => by
    have hodd' : rest.length % 2 = 1 := by simp only [List.length_cons] at hodd; omega
    rw [List.getLast?_cons_of_ne_nil (List.cons_ne_nil hi rest), List.getLast?_cons_of_ne_nil, h.low hodd']
    rintro rfl
    cases hodd'
  ill := h.ill

/-- Fewer TWBYTEs than the run still needs, two at a time as `words` takes them. -/
theorem twpProgress_foldl : ∀ {buf : List Byte} {u : Twp}, u.phase = .run → u.haveLow = false →
    buf.length < u.rem.toNat → TwpProgress u buf ((wordsOf (buf.map .twbyte)).foldl twpWord u)
  | [], u, hp, _, _ => ⟨hp, rfl, ⟨[], rfl, (List.append_nil _).symm⟩, nofun, rfl⟩
  | [v], u, hp, hh, hlt => by
    have heq : (wordsOf ([v].map .twbyte)).foldl twpWord u = _ := twpWord_twbyte_low hp hh v
    rw [heq]
    exact ⟨hp, rem_pred_toNat (Nat.one_le_of_lt hlt), ⟨[], by simp [words], (List.append_nil _).symm⟩, fun _ => rfl, rfl⟩
  | lo :: hi :: rest, u, hp, hh, hlt => by
    simp only [List.length_cons] at hlt
    have hpair := twpWord_pair hp hh (by omega) lo hi
    have hrem := afterPair_rem_toNat (u := u) (by omega) lo hi
    have ih := twpProgress_foldl (buf := rest) (u := afterPair lo hi u) hp rfl (by omega)
    rw [← hpair] at ih
    exact TwpProgress.cons_pair (by omega) (hpair ▸ ih)

/-- With an even number of bytes to come at `u`, TW.HAVE says whether `buf` ends within a pair. -/
theorem TwpProgress.haveLow_eq {u t : Twp} {buf : List Byte} (h : TwpProgress u buf t) (hinv : TwpInv t)
    (hu : u.rem.toNat % 2 = 0) (hlt : buf.length < u.rem.toNat) : t.haveLow = decide (buf.length % 2 = 1) := by
  obtain ⟨-, heven, -, -⟩ := hinv.run h.phase
  rw [Bool.eq_iff_iff, decide_eq_true_iff, ← Bool.not_eq_false, ← heven, h.rem]
  omega

theorem unitOf_of_mem_twbytes {buf : List Byte} : ∀ w ∈ wordsOf (buf.map .twbyte), unitOf w = .twp := by
  simp [wordsOf, unitOf_encode, Instr.unit]

theorem foldl_twpWord_inv {ws : List Word} (hws : ∀ w ∈ ws, unitOf w = .twp) {u : Twp} (h : TwpInv u) :
    TwpInv (ws.foldl twpWord u) := by
  induction ws generalizing u with
  | nil => exact h
  | cons w ws ih =>
    have hw := (twpWord_transition (hws w List.mem_cons_self) { State.reset with tw := u }).keeps_inv h
    exact ih (fun x hx => hws x (List.mem_cons_of_mem w hx)) hw

theorem values_prefix (ws more : List Word16) : values ws <+: values (ws ++ more) := by
  induction more using List.reverseRecOn with
  | nil => rw [List.append_nil]
  | append_singleton more w ih =>
    rw [← List.append_assoc, values_snoc, List.append_assoc]
    exact ih.trans (List.prefix_append _ _)

/-- Every literal that goes on from the words begins with their open literal (R128). -/
theorem openLiteral_prefix_literal (ws more : List Word16) : openLiteral ws <+: literal (ws ++ more) := by
  have h : openLiteral ws <+: openLiteral (ws ++ more) := (List.prefix_append_right_inj _).mpr (values_prefix ws more)
  exact h.trans (List.prefix_append _ _)

theorem foldl_twbeg_twbyte {n : Count} {buf : List Byte} {u : Twp} (hp : u.phase ≠ .run) (h0 : n ≠ 0)
    (hn : n.toNat % 2 = 0) :
    (wordsOf (.twbeg n :: buf.map .twbyte)).foldl twpWord u =
      (wordsOf (buf.map .twbyte)).foldl twpWord { clearTwp n u with txt := openLiteral [], phase := .run } := by
  rw [← twpWord_twbeg hp h0 hn]
  rfl

/-- Settles O35: the bytes' progress from the opened run, and the text by the invariant every word keeps. -/
theorem unfinishedTwpRunHoldsThePairsSoFar : Obligations.UnfinishedTwpRunHoldsThePairsSoFar := by
  intro ws n buf s hp hn hlt hws
  have h0 : n ≠ 0 := fun h => by simp [h] at hlt
  have hinv := foldl_twpWord_inv (unitOf_of_mem_twbytes (buf := buf)) (twpInv_begin h0 hn s.tw)
  have hprog := twpProgress_foldl (u := { clearTwp n s.tw with txt := openLiteral [], phase := .run }) rfl rfl hlt
  refine ⟨_, runWords_eq ws s, ?_⟩
  simp only [hws, foldl_twbeg_twbyte hp h0 hn]
  generalize (wordsOf (buf.map .twbyte)).foldl twpWord _ = t at hinv hprog ⊢
  have hhave := hprog.haveLow_eq hinv hn hlt
  obtain ⟨hphase, hrem, ⟨_, hwords, rfl⟩, hlow, hill⟩ := hprog
  obtain ⟨-, -, htxt, -⟩ := hinv.run hphase
  have hlen : t.wout.length = buf.length / 2 := by
    rw [words_length hwords, List.length_take]
    omega
  exact ⟨hphase, hrem, hwords, hlen, hhave, hlow, htxt, fun more => htxt ▸ openLiteral_prefix_literal _ more, hill⟩

end Sys2Proof.Proofs
end

section
/-! PROOFS. What one command does and what it leaves unchanged (20_memory.md R59, R60): an equation per command and case
for an admitted command, one equation for every refused one, then the frames and the bounds on what a command emits. -/

namespace Sys2Proof.Proofs

open Sys2Proof Sys2Proof.Machine

/-! ### The step around `exec` (20_memory.md R60) -/

/-- Settles O6: a step on a word is the word's effect, and a command word's effect is its meaning. -/
theorem stepRunsTheDecodedCommand : Obligations.StepRunsTheDecodedCommand := by
  intro s w rest i hin hd
  rw [step_command hin, wordEffect_command hd]

/-- Settles O7: by the kind of the input; a word's effect is a next state whatever the word. -/
theorem everyStepCompletesAndTakesOneInput : Obligations.EveryStepCompletesAndTakesOneInput := by
  refine ⟨fun s x rest hin => ?_, fun s hin => step_idle hin⟩
  cases x with
  | reset p => exact ⟨_, step_reset hin, rfl, rfl⟩
  | command w =>
    obtain ⟨t, ht, hinputs, hconfig, -⟩ := wordEffect_next w { s with inputs := rest }
    exact ⟨t, (step_command hin).trans ht, hinputs, hconfig⟩

/-! ### What a command answers, by its admission (60_exceptions.md R143, R144) -/

/-- A command that is not admitted is refused by its unit, and does nothing else. -/
theorem exec_refused {i : Instr} {s : State} (ha : admitted s i = false) : exec i s = .next (refuse i.unit s) := by
  cases i with
  | ctbit b =>
    simp only [admitted, decide_eq_false_iff_not, not_and, not_lt] at ha
    simp only [exec, execCtbit, Instr.unit]
    split_ifs with hp hv hlen
    · rfl
    · rfl
    · rfl
    · exact absurd (ha hp (by simpa using hv)) hlen
  | ctclr | ctsel _ | bsbeg | twbeg _ => exact if_pos (not_not.mp (of_decide_eq_false ha))
  | bssym _ | bsend | twbyte _ => exact if_pos (of_decide_eq_false ha)

theorem exec_ctclr {s : State} (ha : admitted s .ctclr = true) :
    exec .ctclr s = .next { s with bs := { s.bs with ct := CodeTable.cleared, selV := false, selI := 0 } } :=
  if_neg (of_decide_eq_true ha)

theorem exec_ctsel {s : State} {e : Byte} (ha : admitted s (.ctsel e) = true) :
    exec (.ctsel e) s = .next { s with bs := { s.bs with ct := s.bs.ct.put e [], selV := true, selI := e } } :=
  if_neg (of_decide_eq_true ha)

theorem exec_ctbit {s : State} {b : Bool} (ha : admitted s (.ctbit b) = true) :
    exec (.ctbit b) s =
      .next { s with bs := { s.bs with ct := s.bs.ct.put s.bs.selI (s.bs.ct.lookup s.bs.selI ++ [b]) } } := by
  obtain ⟨hp, hv, hlen⟩ := of_decide_eq_true ha
  simp [exec, execCtbit, hp, hv, hlen]

theorem exec_bsbeg {s : State} (ha : admitted s .bsbeg = true) :
    exec .bsbeg s = .next { s with bs := { clearBsp s.bs with phase := .run } } :=
  if_neg (of_decide_eq_true ha)

theorem exec_bssym_absent {s : State} {v : Byte} (ha : admitted s (.bssym v) = true) (hv : s.bs.ct.lookup v = []) :
    exec (.bssym v) s =
      .next { s with bs := { s.bs with cause := .missingCodeEntry, fsym := v, phase := .fault } } :=
  (if_neg (not_not.mpr (of_decide_eq_true ha))).trans (if_pos hv)

theorem exec_bssym_present {s : State} {v : Byte} (ha : admitted s (.bssym v) = true) (hv : s.bs.ct.lookup v ≠ []) :
    exec (.bssym v) s = .next { s with bs := appendCode s.bs (s.bs.ct.lookup v) } :=
  (if_neg (not_not.mpr (of_decide_eq_true ha))).trans (if_neg hv)

theorem exec_bsend {s : State} (ha : admitted s .bsend = true) :
    exec .bsend s = .next { s with bs := { flushTail s.bs with pad := padOfCnt s.bs.cnt, phase := .done } } :=
  if_neg (not_not.mpr (of_decide_eq_true ha))

/-- An admitted TWBEG clears the run, and then writes TW.CAUSE, TW.TXT and TW.PHASE alone, the text two braces at most. -/
theorem exec_twbeg {s : State} {n : Count} (ha : admitted s (.twbeg n) = true) :
    ∃ cause txt phase, txt.length ≤ 2 ∧
      exec (.twbeg n) s = .next { s with tw := { clearTwp n s.tw with cause := cause, txt := txt, phase := phase } } := by
  have hp : s.tw.phase ≠ .run := of_decide_eq_true ha
  simp only [exec, execTwbeg, if_neg hp]
  split_ifs with hodd h0
  · exact ⟨.malformedTreeLength, [], .fault, by decide, rfl⟩
  · exact ⟨.none, literal [], .done, by decide, rfl⟩
  · exact ⟨.none, openLiteral [], .run, by decide, rfl⟩

theorem exec_twbyte_low {s : State} {v : Byte} (ha : admitted s (.twbyte v) = true) (hh : s.tw.haveLow = false) :
    exec (.twbyte v) s = .next { s with tw := { s.tw with low := v, haveLow := true, rem := s.tw.rem - 1 } } :=
  (if_neg (not_not.mpr (of_decide_eq_true ha))).trans (if_pos hh)

theorem exec_twbyte_high {s : State} {v : Byte} (ha : admitted s (.twbyte v) = true) (hh : s.tw.haveLow = true) :
    exec (.twbyte v) s = .next { s with tw := completePair v s.tw } :=
  (if_neg (not_not.mpr (of_decide_eq_true ha))).trans (if_neg (by simp [hh]))

/-! ### Frames (20_memory.md R59) -/

@[simp] theorem appendCode_selV (u : Bsp) (c : Bits) : (appendCode u c).selV = u.selV := by rw [appendCode_frame]
@[simp] theorem appendCode_selI (u : Bsp) (c : Bits) : (appendCode u c).selI = u.selI := by rw [appendCode_frame]
@[simp] theorem appendCode_fsym (u : Bsp) (c : Bits) : (appendCode u c).fsym = u.fsym := by rw [appendCode_frame]
@[simp] theorem flushTail_selV (u : Bsp) : (flushTail u).selV = u.selV := by rw [flushTail_frame]
@[simp] theorem flushTail_selI (u : Bsp) : (flushTail u).selI = u.selI := by rw [flushTail_frame]
@[simp] theorem flushTail_fsym (u : Bsp) : (flushTail u).fsym = u.fsym := by rw [flushTail_frame]

@[simp] theorem completePair_low (v : Byte) (u : Twp) : (completePair v u).low = u.low := by
  obtain ⟨-, h⟩ | ⟨-, h⟩ := completePair_cases v u <;> rw [h]

/-- Settles O17: a refusal changes BS.ILL alone; an admitted command writes SEL and the entries it names. -/
theorem codeTableCommandsFrame : Obligations.CodeTableCommandsFrame := by
  intro i s t hi he
  cases ha : admitted s i with
  | false =>
    have hu : i.unit = .bsp := by obtain rfl | ⟨e, rfl⟩ | ⟨b, rfl⟩ := hi <;> rfl
    cases (exec_refused ha).symm.trans he
    simp [hu]
  | true =>
    obtain rfl | ⟨e, rfl⟩ | ⟨b, rfl⟩ := hi
    · cases (exec_ctclr ha).symm.trans he
      simp
    · cases (exec_ctsel ha).symm.trans he
      simpa using fun v hv => lookup_put_ne s.bs.ct [] hv
    · cases (exec_ctbit ha).symm.trans he
      simpa using fun v hv => lookup_put_ne s.bs.ct _ hv

/-- Settles O23: a refusal changes BS.ILL alone; an admitted command writes the registers of the run, BSSYM by whether
the byte value has an entry. -/
theorem bitstreamPackerCommandsFrame : Obligations.BitstreamPackerCommandsFrame := by
  intro i s t hi he
  cases ha : admitted s i with
  | false =>
    have hu : i.unit = .bsp := by obtain rfl | ⟨v, rfl⟩ | rfl := hi <;> rfl
    cases (exec_refused ha).symm.trans he
    simp [hu]
  | true =>
    obtain rfl | ⟨v, rfl⟩ | rfl := hi
    · cases (exec_bsbeg ha).symm.trans he
      simp
    · by_cases hv : s.bs.ct.lookup v = []
      · cases (exec_bssym_absent ha hv).symm.trans he
        simp [hv]
      · cases (exec_bssym_present ha hv).symm.trans he
        simp [hv, appendCode_out_prefix]
    · cases (exec_bsend ha).symm.trans he
      simp [flushTail_out_prefix]

/-- Settles O33: a refusal changes TW.ILL alone; an admitted TWBYTE either keeps a low byte or completes a pair. -/
theorem treeWordPackerCommandsFrame : Obligations.TreeWordPackerCommandsFrame := by
  intro i s t hi he
  cases ha : admitted s i with
  | false =>
    have hu : i.unit = .twp := by obtain ⟨n, rfl⟩ | ⟨v, rfl⟩ := hi <;> rfl
    cases (exec_refused ha).symm.trans he
    simp [hu]
  | true =>
    obtain ⟨n, rfl⟩ | ⟨v, rfl⟩ := hi
    · obtain ⟨cause, txt, phase, -, hx⟩ := exec_twbeg ha
      cases hx.symm.trans he
      simp
    · cases hh : s.tw.haveLow with
      | false =>
        cases (exec_twbyte_low ha hh).symm.trans he
        simp
      | true =>
        cases (exec_twbyte_high ha hh).symm.trans he
        simp [completePair_streams_prefix]

/-! ### What one command emits (20_memory.md R59) -/

theorem appendCode_out_length (u : Bsp) (c : Bits) :
    (appendCode u c).out.length = u.out.length + (u.cnt.toNat + c.length) / 8 := by
  obtain ⟨h, -⟩ := appendCode_spec u c
  simp [h]

theorem flushTail_out_length_le (u : Bsp) : (flushTail u).out.length ≤ u.out.length + 1 := by
  obtain ⟨-, h⟩ | ⟨-, h⟩ := flushTail_cases u <;> simp [h]

/-- The separator's two characters and the numeral's five. -/
theorem renderWord_length_le (sep : Bool) (txt : List Byte) (w : Word16) :
    (renderWord sep txt w).length ≤ txt.length + 7 := by
  have hdec := dec_length_le w
  cases sep <;> simp [renderWord_eq, separator] <;> omega

@[simp] theorem completePair_wout (v : Byte) (u : Twp) : (completePair v u).wout = u.wout ++ [word u.low v] := by
  obtain ⟨-, h⟩ | ⟨-, h⟩ := completePair_cases v u <;> rw [h]

theorem completePair_txt_length_le (v : Byte) (u : Twp) : (completePair v u).txt.length ≤ u.txt.length + 8 := by
  have hrender := renderWord_length_le u.sep u.txt (word u.low v)
  obtain ⟨-, h⟩ | ⟨-, h⟩ := completePair_cases v u
  · simpa [h] using hrender
  · simpa [h] using hrender.trans (Nat.le_succ _)

theorem exec_bssym_out_length_le {s t : State} {v : Byte} (he : exec (.bssym v) s = .next t)
    (hwf : s.bs.ct.wf s.config.codeMax) : t.bs.out.length ≤ s.bs.out.length + (7 + s.config.codeMax) / 8 := by
  cases ha : admitted s (.bssym v) with
  | false =>
    cases (exec_refused ha).symm.trans he
    exact Nat.le_add_right _ _
  | true =>
    by_cases hv : s.bs.ct.lookup v = []
    · cases (exec_bssym_absent ha hv).symm.trans he
      exact Nat.le_add_right _ _
    · cases (exec_bssym_present ha hv).symm.trans he
      have hbits : s.bs.cnt.toNat + (s.bs.ct.lookup v).length ≤ 7 + s.config.codeMax :=
        Nat.add_le_add (Nat.le_of_lt_succ (cnt_lt s.bs.cnt)) (hwf v)
      rw [appendCode_out_length]
      exact Nat.add_le_add_left (Nat.div_le_div_right hbits) _

theorem exec_bsend_out_length_le {s t : State} (he : exec .bsend s = .next t) :
    t.bs.out.length ≤ s.bs.out.length + 1 := by
  cases ha : admitted s .bsend with
  | false =>
    cases (exec_refused ha).symm.trans he
    exact Nat.le_succ _
  | true =>
    cases (exec_bsend ha).symm.trans he
    exact flushTail_out_length_le s.bs

theorem exec_twbyte_streams_length_le {s t : State} {v : Byte} (he : exec (.twbyte v) s = .next t) :
    t.tw.wout.length ≤ s.tw.wout.length + 1 ∧ t.tw.txt.length ≤ s.tw.txt.length + 8 := by
  cases ha : admitted s (.twbyte v) with
  | false =>
    cases (exec_refused ha).symm.trans he
    exact ⟨Nat.le_succ _, Nat.le_add_right _ _⟩
  | true =>
    cases hh : s.tw.haveLow with
    | false =>
      cases (exec_twbyte_low ha hh).symm.trans he
      exact ⟨Nat.le_succ _, Nat.le_add_right _ _⟩
    | true =>
      cases (exec_twbyte_high ha hh).symm.trans he
      exact ⟨by simp, completePair_txt_length_le v s.tw⟩

theorem exec_twbeg_streams {s t : State} {n : Count} (he : exec (.twbeg n) s = .next t) (hp : s.tw.phase ≠ .run) :
    t.tw.wout = [] ∧ t.tw.txt.length ≤ 2 := by
  obtain ⟨cause, txt, phase, htxt, hx⟩ := exec_twbeg (n := n) (decide_eq_true hp)
  cases hx.symm.trans he
  exact ⟨rfl, htxt⟩

/-- Settles O47: command by command; BSSYM completes the groups of at most seven held bits and CODE_MAX new ones. -/
theorem emissionsOfOneCommandAreBounded : Obligations.EmissionsOfOneCommandAreBounded :=
  fun _ _ => ⟨fun _ => exec_bssym_out_length_le, exec_bsend_out_length_le, fun _ => exec_twbyte_streams_length_le,
    fun _ => exec_twbeg_streams⟩

end Sys2Proof.Proofs
end

section
/-! PROOFS. The encoding (30_encoding.md): the decoder over natural numbers and its inverse (R77), the rows as match and
mask (R73, R74), the number of command words, the reserved words (R75, R76), the unit of a word (R72) and the assembler
(R79, R80). -/

namespace Sys2Proof.Proofs

open Sys2Proof Sys2Proof.Machine Sys2Proof.Laws

/-! ### The decoder and its inverse (R77) -/

theorem byteOperand_argOf (w : Word) : byteOperand (argOf w) = BitVec.ofNat 8 (w.toNat % 2 ^ 24) := by
  apply BitVec.eq_of_toNat_eq
  simp

theorem countOperand_argOf (w : Word) : countOperand (argOf w) = BitVec.ofNat 24 (w.toNat % 2 ^ 24) := by
  apply BitVec.eq_of_toNat_eq
  simp [countOperand]

theorem bitOperand_of_lt {a : BitVec 24} (h : a.toNat < 2) : bitOperand a = decide (a.toNat = 1) := by
  rw [bitOperand_eq, Nat.mod_eq_of_lt h]

/-- OP and ARG make up the word (R71). -/
theorem word_ext {w x : Word} (hop : opcodeOf w = opcodeOf x) (harg : argOf w = argOf x) : w = x := by
  have hop' := congrArg BitVec.toNat hop
  have harg' := congrArg BitVec.toNat harg
  simp only [opcodeOf_toNat, argOf_toNat] at hop' harg'
  apply BitVec.eq_of_toNat_eq
  omega

/-- A word with the OP of a match value without ARG is that match value with the word's ARG as operand. -/
theorem match_or_eq_of_arg {n : Nat} {m w : Word} {v : BitVec n} (hn : n ≤ 24) (hm : argOf m = 0)
    (hop : opcodeOf w = opcodeOf m) (harg : v.zeroExtend 24 = argOf w) : m ||| v.zeroExtend 32 = w :=
  word_ext ((opcodeOf_match_or m v hn).trans hop.symm) ((argOf_match_or hm v).trans harg)

theorem zeroExtend_byteOperand {a : BitVec 24} (h : aboveByte a = 0) : (byteOperand a).zeroExtend 24 = a := by
  have ha := (aboveByte_eq_zero a).mp h
  apply BitVec.eq_of_toNat_eq
  simp
  omega

theorem zeroExtend_bitOperand {a : BitVec 24} (h : aboveBit a = 0) : (BitVec.ofBool (bitOperand a)).zeroExtend 24 = a := by
  have ha := (aboveBit_eq_zero a).mp h
  apply BitVec.eq_of_toNat_eq
  rw [bitOperand_of_lt ha]
  obtain h0 | h1 : a.toNat = 0 ∨ a.toNat = 1 := by omega
  · simp [h0]
  · simp [h1]

/-- The word of the command a word decodes to is the word (R77). -/
theorem encode_of_decode {w : Word} {i : Instr} (h : decode w = .command i) : encode i = w := by
  simp only [decode] at h
  split_ifs at h with h1 h2 h3 h4 h5 h6 h7 h8 <;> cases h
  · exact (word_ext h1.1 h1.2).symm
  · exact match_or_eq_of_arg (by decide) rfl h2.1 (zeroExtend_byteOperand h2.2)
  · exact match_or_eq_of_arg (by decide) rfl h3.1 (zeroExtend_bitOperand h3.2)
  · exact (word_ext h4.1 h4.2).symm
  · exact match_or_eq_of_arg (by decide) rfl h5.1 (zeroExtend_byteOperand h5.2)
  · exact (word_ext h6.1 h6.2).symm
  · exact match_or_eq_of_arg (by decide) rfl h7 (BitVec.setWidth_eq _)
  · exact match_or_eq_of_arg (by decide) rfl h8.1 (zeroExtend_byteOperand h8.2)

theorem decode_eq_command_iff {w : Word} {i : Instr} : decode w = .command i ↔ encode i = w :=
  ⟨encode_of_decode, fun h => h ▸ decode_encode i⟩

/-- Settles O1: the tests on OP and ARG are the tests on their values, and `encode` is inverse to `decode` both ways. -/
theorem decoderIsTheInverseOfTheEncoder : Obligations.DecoderIsTheInverseOfTheEncoder := by
  refine ⟨fun w => ?_, decode_encode, fun w i => encode_of_decode⟩
  have hbit : w.toNat % 2 ^ 24 < 2 → bitOperand (argOf w) = decide (w.toNat % 2 ^ 24 = 1) := by
    simpa only [argOf_toNat] using bitOperand_of_lt (a := argOf w)
  simp only [decode, opcode_eq, arg_eq_zero, aboveByte_eq_zero, aboveBit_eq_zero, argOf_toNat, byteOperand_argOf,
    countOperand_argOf, unitOf_eq]
  exact ite_congr rfl (fun _ => rfl) fun _ => ite_congr rfl (fun _ => rfl) fun _ =>
    ite_congr rfl (fun h => by rw [hbit h.2]) fun _ => rfl

/-! ### The rows as match and mask (R73, R74) -/

/-- A word whose bits from `n` up are a match value's is the match value with the word's low `n` bits as operand. -/
theorem match_or_low {m w mask : Word} (n : Nat) (hmask : ∀ i, i < 32 → mask.getLsbD i = decide (n ≤ i))
    (h : w &&& mask = m) : m ||| (w.setWidth n).zeroExtend 32 = w := by
  apply BitVec.eq_of_getLsbD_eq
  intro i hi
  subst h
  by_cases hn : n ≤ i
  · simp [-BitVec.getLsbD_eq_getElem, hmask i hi, hn]
  · simp [-BitVec.getLsbD_eq_getElem, hmask i hi, hi, hn, Nat.lt_of_not_le hn]

/-- The operand is the low bits of the word where the match value has none there (R74). -/
theorem operand_toNat {n : Nat} {m w : Word} {v : BitVec n} (hm : m.setWidth n = 0) (hn : n ≤ 32)
    (h : m ||| v.zeroExtend 32 = w) : v.toNat = w.toNat % 2 ^ n := by
  rw [← BitVec.toNat_setWidth, ← h, BitVec.setWidth_or, hm]
  simp [BitVec.setWidth_setWidth_of_le, hn]

/-- A word matches a row exactly when it is the row's match value with some operand. -/
theorem exists_match_or_iff {n : Nat} {m mask w : Word} (hn : n ≤ 32)
    (hmask : ∀ i, i < 32 → mask.getLsbD i = decide (n ≤ i)) (hm : m &&& mask = m) :
    (∃ v : BitVec n, m ||| v.zeroExtend 32 = w) ↔ w &&& mask = m := by
  refine ⟨?_, fun h => ⟨_, match_or_low n hmask h⟩⟩
  rintro ⟨v, rfl⟩
  exact operand_masked m mask v hm fun i hi => by simp [hmask i (by omega), hi]

/-- A row that fixes every bit is matched by its match value alone. -/
theorem match_eq_iff {m w : Word} : m = w ↔ w &&& 0xFFFFFFFF#32 = m := by
  have hall : w &&& 0xFFFFFFFF#32 = w := BitVec.and_allOnes
  rw [hall, eq_comm]

theorem ofBool_surjective : Function.Surjective BitVec.ofBool := fun v =>
  ⟨v.getLsbD 0, by rw [← BitVec.setWidth_one, BitVec.setWidth_eq]⟩

/-- The rows with a byte operand. -/
theorem exists_match_or_byte_iff {m w : Word} (hm : m &&& 0xFFFFFF00#32 = m) :
    (∃ v : Byte, m ||| v.zeroExtend 32 = w) ↔ w &&& 0xFFFFFF00#32 = m :=
  exists_match_or_iff (by decide) (by decide) hm

theorem exists_match_or_bit_iff {m w : Word} (hm : m &&& 0xFFFFFFFE#32 = m) :
    (∃ b : Bool, m ||| (BitVec.ofBool b).zeroExtend 32 = w) ↔ w &&& 0xFFFFFFFE#32 = m :=
  ofBool_surjective.exists.symm.trans (exists_match_or_iff (by decide) (by decide) hm)

theorem exists_match_or_count_iff {m w : Word} (hm : m &&& 0xFF000000#32 = m) :
    (∃ n : Count, m ||| n.zeroExtend 32 = w) ↔ w &&& 0xFF000000#32 = m :=
  exists_match_or_iff (by decide) (by decide) hm

/-- Settles O2: a word of a row is its match value with an operand, which is what matching the row says; the operand is the
word's low bits. -/
theorem rowsAreTheirMatchAndMask : Obligations.RowsAreTheirMatchAndMask := by
  intro w
  simp only [decode_eq_command_iff]
  exact ⟨match_eq_iff, exists_match_or_byte_iff rfl, exists_match_or_bit_iff rfl, match_eq_iff,
    exists_match_or_byte_iff rfl, match_eq_iff, exists_match_or_count_iff rfl, exists_match_or_byte_iff rfl,
    fun s => operand_toNat rfl (by decide),
    fun b h => (BitVec.toNat_ofBool b).symm.trans (operand_toNat rfl (by decide) h),
    fun v => operand_toNat rfl (by decide),
    fun n => operand_toNat rfl (by decide),
    fun v => operand_toNat rfl (by decide)⟩

/-! ### The number of command words (R73) -/

/-- A command is its row and the row's operand: the rows of R73 in their order. -/
def instrEquiv : Instr ≃ Unit ⊕ Byte ⊕ Bool ⊕ Unit ⊕ Byte ⊕ Unit ⊕ Count ⊕ Byte where
  toFun
    | .ctclr => .inl ()
    | .ctsel s => .inr (.inl s)
    | .ctbit b => .inr (.inr (.inl b))
    | .bsbeg => .inr (.inr (.inr (.inl ())))
    | .bssym v => .inr (.inr (.inr (.inr (.inl v))))
    | .bsend => .inr (.inr (.inr (.inr (.inr (.inl ())))))
    | .twbeg n => .inr (.inr (.inr (.inr (.inr (.inr (.inl n))))))
    | .twbyte v => .inr (.inr (.inr (.inr (.inr (.inr (.inr v))))))
  invFun :=
    Sum.elim (fun _ => .ctclr) <| Sum.elim .ctsel <| Sum.elim .ctbit <| Sum.elim (fun _ => .bsbeg) <|
      Sum.elim .bssym <| Sum.elim (fun _ => .bsend) <| Sum.elim .twbeg .twbyte
  left_inv i := by cases i <;> rfl
  right_inv := by rintro (_ | _ | _ | _ | _ | _ | _ | _) <;> rfl

theorem natCard_bitVec (n : Nat) : Nat.card (BitVec n) = 2 ^ n :=
  (Nat.card_congr BitVec.equivFin.toEquiv).trans (Nat.card_fin _)

theorem natCard_instr : Nat.card Instr = 1 + (2 ^ 8 + (2 + (1 + (2 ^ 8 + (1 + (2 ^ 24 + 2 ^ 8)))))) := by
  rw [Nat.card_congr instrEquiv]
  simp only [Nat.card_sum, natCard_bitVec, Nat.card_unique, Nat.card_eq_fintype_card (α := Bool), Fintype.card_bool]

theorem encode_injective : Function.Injective encode := fun i j h => by
  have hi := decode_encode i
  rw [h, decode_encode j] at hi
  cases hi
  rfl

/-- The words that decode to a command are the words of the commands. -/
theorem exists_decode_iff_mem_range {w : Word} : (∃ i, decode w = .command i) ↔ w ∈ Set.range encode :=
  exists_congr fun _ => decode_eq_command_iff

/-- Settles O3: each command has one word, so the words counted are as many as the operands of the eight rows. -/
theorem executableWordsAreCounted : Obligations.ExecutableWordsAreCounted := by
  unfold Obligations.ExecutableWordsAreCounted
  rw [Nat.card_congr (Equiv.subtypeEquivRight fun _ => exists_decode_iff_mem_range),
    ← Nat.card_congr (Equiv.ofInjective encode encode_injective)]
  exact natCard_instr

/-! ### Reserved words (R75, R76) -/

/-- A command is decoded only after a test of OP for its row's opcode (R77). -/
theorem opcode_of_decode {w : Word} {i : Instr} (h : decode w = .command i) :
    (1 ≤ w.toNat / 2 ^ 24 ∧ w.toNat / 2 ^ 24 ≤ 6) ∨ w.toNat / 2 ^ 24 = 0x81 ∨ w.toNat / 2 ^ 24 = 0x82 := by
  simp only [decode, opcode_eq] at h
  split_ifs at h <;> simp_all

/-- A word that decodes to no command is reserved. -/
theorem exists_reserved_iff {w : Word} : (∃ u, decode w = .reserved u) ↔ ∀ i, decode w ≠ .command i := by
  cases decode w <;> simp

theorem unitOf_eq_twp_iff (w : Word) : unitOf w = .twp ↔ w.getLsbD 31 = true := by
  unfold unitOf
  split <;> simp_all only [reduceCtorEq]

/-- Settles O4: by what `decode` answers; a command's opcode is none of those the ranges name. -/
theorem reservedWordsAreTheRest : Obligations.ReservedWordsAreTheRest := by
  refine ⟨fun w => ?_, fun w u h => ?_, fun w hop => ?_, rfl, rfl⟩
  · simp only [exists_reserved_iff, ne_eq, decode_eq_command_iff]
  · rw [decode_reserved_unit h, unitOf_eq_twp_iff]
  · refine exists_reserved_iff.mpr fun i hi => ?_
    have := opcode_of_decode hi
    omega

/-- Settles O5: by running the decoder on each word. -/
theorem sampleWordsDecodeAsTheTableSays : Obligations.SampleWordsDecodeAsTheTableSays := by
  unfold Obligations.SampleWordsDecodeAsTheTableSays
  decide

/-! ### One word, one unit (R72) -/

theorem unitOf_eq_bsp_iff (w : Word) : unitOf w = .bsp ↔ w.getLsbD 31 = false := by
  rw [← Bool.not_eq_true, ← unitOf_eq_twp_iff]
  cases unitOf w <;> simp

/-- Settles O44: a word's effect is a function of its unit and CODE_MAX, and replaces that unit alone. -/
theorem aWordTouchesOnlyItsUnit : Obligations.AWordTouchesOnlyItsUnit := by
  intro s t w r₁ r₂ hs ht hc
  rw [step_command hs, step_command ht, ← unitOf_eq_bsp_iff, ← unitOf_eq_twp_iff]
  cases hu : unitOf w with
  | bsp =>
    refine ⟨_, _, wordEffect_bsp hu _, wordEffect_bsp hu _, fun _ => ⟨rfl, fun h => ?_⟩, nofun⟩
    simp only [h, hc]
  | twp =>
    refine ⟨_, _, wordEffect_twp hu _, wordEffect_twp hu _, nofun, fun _ => ⟨rfl, fun h => ?_⟩⟩
    simp only [h]

/-! ### The assembler (R79, R80) -/

@[simp] theorem map_decode_wordsOf (is : List Instr) : (wordsOf is).map decode = is.map .command := by
  simp [wordsOf, decode_encode]

theorem assemble_eq_none {l : AsmLine} (h : ¬ AsmLine.wellFormed l = true) : assemble l = none := if_neg h

theorem assemble_eq_some {l : AsmLine} (h : AsmLine.wellFormed l = true) : assemble l = some (AsmLine.expand l) :=
  if_pos h

theorem expand_of_assemble {l : AsmLine} {ws : List Word} (h : assemble l = some ws) : AsmLine.expand l = ws := by
  rw [assemble, Option.ite_none_right_eq_some, Option.some_inj] at h
  exact h.2

/-- A well-formed line that expands to the words of commands assembles to those commands. -/
theorem decode_assemble {l : AsmLine} {is : List Instr} (hw : AsmLine.wellFormed l = true)
    (hx : AsmLine.expand l = wordsOf is) : (assemble l).map (fun ws => ws.map decode) = some (is.map .command) := by
  rw [assemble_eq_some hw, hx, Option.map_some, map_decode_wordsOf]

/-- Every line but a raw word expands to the words of commands. -/
theorem exists_expand_eq_wordsOf {l : AsmLine} (h : ∀ w, l ≠ .word w) : ∃ is, AsmLine.expand l = wordsOf is := by
  cases l with
  | word w => exact absurd rfl (h w)
  | ctclr => exact ⟨[.ctclr], rfl⟩
  | ctsel s => exact ⟨[.ctsel (byteOf s)], rfl⟩
  | ctbit b => exact ⟨[.ctbit (decide (b = 1))], rfl⟩
  | bsbeg => exact ⟨[.bsbeg], rfl⟩
  | bssym v => exact ⟨[.bssym (byteOf v)], rfl⟩
  | bsend => exact ⟨[.bsend], rfl⟩
  | twbeg n => exact ⟨[.twbeg (BitVec.ofNat 24 n)], rfl⟩
  | twbyte v => exact ⟨[.twbyte (byteOf v)], rfl⟩
  | ctcode s digits => exact ⟨_, rfl⟩
  | bspack vs => exact ⟨_, rfl⟩
  | twpack vs => exact ⟨_, rfl⟩

theorem wellFormed_ctcode_iff {s : Nat} {ds : Bits} :
    AsmLine.wellFormed (.ctcode s ds) = true ↔ s ≤ 255 ∧ ds ≠ [] := by simp [AsmLine.wellFormed]

theorem wellFormed_bspack_iff {vs : List Nat} :
    AsmLine.wellFormed (.bspack vs) = true ↔ ∀ v ∈ vs, v ≤ 255 := by simp [AsmLine.wellFormed]

theorem wellFormed_twpack_iff {vs : List Nat} :
    AsmLine.wellFormed (.twpack vs) = true ↔ (∀ v ∈ vs, v ≤ 255) ∧ vs.length ≤ 16777215 := by
  simp [AsmLine.wellFormed]

theorem not_all_le_of_exists_lt {vs : List Nat} {n : Nat} (h : ∃ v ∈ vs, n < v) : ¬ ∀ v ∈ vs, v ≤ n := by
  simpa using h

/-- Settles O54: line by line; a well-formed line decodes to the commands it expands to. -/
theorem assemblerNeverProducesAReservedWord : Obligations.AssemblerNeverProducesAReservedWord := by
  unfold Obligations.AssemblerNeverProducesAReservedWord
  intro asm
  refine ⟨⟨decode_assemble (is := [.ctclr]) rfl rfl, decode_assemble (is := [.bsbeg]) rfl rfl,
      decode_assemble (is := [.bsend]) rfl rfl⟩,
    fun s => ⟨fun h => assemble_eq_none (mt of_decide_eq_true h.not_ge),
      fun h => decode_assemble (is := [.ctsel (byteOf s)]) (decide_eq_true h) rfl⟩,
    fun b h => assemble_eq_none (mt of_decide_eq_true h.not_ge),
    ⟨decode_assemble (is := [.ctbit false]) rfl rfl, decode_assemble (is := [.ctbit true]) rfl rfl⟩,
    fun v => ⟨fun h => assemble_eq_none (mt of_decide_eq_true h.not_ge),
      fun h => decode_assemble (is := [.bssym (byteOf v)]) (decide_eq_true h) rfl⟩,
    fun n => ⟨fun h => assemble_eq_none (mt of_decide_eq_true h.not_ge),
      fun h => decode_assemble (is := [.twbeg (BitVec.ofNat 24 n)]) (decide_eq_true h) rfl⟩,
    fun v => ⟨fun h => assemble_eq_none (mt of_decide_eq_true h.not_ge),
      fun h => decode_assemble (is := [.twbyte (byteOf v)]) (decide_eq_true h) rfl⟩,
    fun w => ⟨fun h => assemble_eq_none (mt of_decide_eq_true (by omega)),
      fun h => assemble_eq_some (decide_eq_true (by omega))⟩,
    ?_, ?_, ?_, ?_⟩
  · intro s ds
    refine ⟨fun h => assemble_eq_none fun hw => ?_, fun hs hds => ?_⟩
    · obtain ⟨hs, hds⟩ := wellFormed_ctcode_iff.mp hw
      exact h.elim hs.not_gt hds
    · exact (decode_assemble (wellFormed_ctcode_iff.mpr ⟨hs, hds⟩) rfl).trans (by simp [ctcode, byteOf])
  · intro vs
    refine ⟨fun h => assemble_eq_none (mt wellFormed_bspack_iff.mp (not_all_le_of_exists_lt h)), fun hvs => ?_⟩
    exact (decode_assemble (wellFormed_bspack_iff.mpr hvs) rfl).trans (by simp [bspack, byteOf])
  · intro vs
    refine ⟨fun h => assemble_eq_none fun hw => ?_, fun hvs hlen => ?_⟩
    · obtain ⟨hvs, hlen⟩ := wellFormed_twpack_iff.mp hw
      exact h.elim (fun hlt => not_all_le_of_exists_lt hlt hvs) hlen.not_gt
    · exact (decode_assemble (wellFormed_twpack_iff.mpr ⟨hvs, hlen⟩) rfl).trans (by simp [twpack, byteOf])
  · intro l ws h hraw w hw
    obtain ⟨is, his⟩ := exists_expand_eq_wordsOf hraw
    rw [← expand_of_assemble h, his] at hw
    obtain ⟨i, -, rfl⟩ := List.mem_map.mp hw
    exact ⟨i, decode_encode i⟩

end Sys2Proof.Proofs
end

section
/-! PROOFS. The code table (40_code_table.md): what each command does to it (R91 to R93), what a step can do to it (R90), and
the table a list of pairs loads (R94). -/

namespace Sys2Proof.Proofs

open Sys2Proof Sys2Proof.Machine

/-! ### One command (R91 to R93) -/

/-- Settles O13: the cleared table reads absent everywhere; in phase RUN the command is not admitted. -/
theorem ctclrEmptiesTheTable : Obligations.CtclrEmptiesTheTable :=
  ⟨rfl, fun _ => ⟨fun hp => ⟨_, lookup_cleared, exec_ctclr (decide_eq_true hp)⟩,
    fun hp => exec_refused (i := .ctclr) (decide_eq_false (not_not.mpr hp))⟩⟩

/-- Settles O14: the written entry reads absent, every other one reads as it did. -/
theorem ctselEmptiesAndSelectsOneEntry : Obligations.CtselEmptiesAndSelectsOneEntry := fun e =>
  ⟨rfl, fun s => ⟨fun hp =>
      ⟨_, lookup_put_self s.bs.ct e [], fun _ => lookup_put_ne s.bs.ct [], exec_ctsel (decide_eq_true hp)⟩,
    fun hp => exec_refused (i := .ctsel e) (decide_eq_false (not_not.mpr hp))⟩⟩

/-- CTBIT is refused by the phase, by SEL.V or by a full entry. -/
theorem ctbit_not_admitted {s : State} {b : Bool}
    (h : s.bs.phase = .run ∨ s.bs.selV = false ∨ s.config.codeMax ≤ (s.bs.ct.lookup s.bs.selI).length) :
    admitted s (.ctbit b) = false := by
  refine decide_eq_false fun ⟨hp, hv, hlen⟩ => ?_
  obtain hrun | hsel | hfull := h
  · exact hp hrun
  · exact absurd hv (by simp [hsel])
  · exact hfull.not_gt hlen

/-- Settles O15: the written entry reads longer by the digit, every other one as it did; the three tests are the admission. -/
theorem ctbitAppendsOneDigit : Obligations.CtbitAppendsOneDigit := by
  intro b
  refine ⟨by cases b <;> rfl, fun s => ⟨fun hp hv hlen => ?_, fun h => exec_refused (ctbit_not_admitted h)⟩⟩
  exact ⟨_, lookup_put_self s.bs.ct s.bs.selI _, fun _ => lookup_put_ne s.bs.ct _,
    exec_ctbit (decide_eq_true ⟨hp, hv, hlen⟩)⟩

/-! ### What a step can do to the table (R90, 10_state.md R45 item 6) -/

/-- A BSP word leaves the table and SEL as they are, or it is a code table command outside phase RUN. -/
theorem BspTransition.table_cases {s : State} {w : Word} {u : Bsp} (htr : BspTransition s w u) :
    (u.ct = s.bs.ct ∧ u.selV = s.bs.selV ∧ u.selI = s.bs.selI) ∨
    (s.bs.phase ≠ .run ∧ ∃ i, decode w = .command i ∧ (i = .ctclr ∨ (∃ e, i = .ctsel e) ∨ ∃ b, i = .ctbit b)) := by
  cases htr with
  | ctclr hd hp => exact .inr ⟨hp, _, hd, .inl rfl⟩
  | ctsel hd hp => exact .inr ⟨hp, _, hd, .inr (.inl ⟨_, rfl⟩)⟩
  | ctbit hd hp _ _ => exact .inr ⟨hp, _, hd, .inr (.inr ⟨_, rfl⟩)⟩
  | refused _ | bsbeg _ _ | bssymAbsent _ _ _ | bssymPresent _ _ _ | bsend _ _ => exact .inl (by simp)

/-- Settles O16: apart from reset, only a code table command outside phase RUN can change them; a TWP word leaves BSP alone. -/
theorem tableChangesOnlyOutsideARun : Obligations.TableChangesOnlyOutsideARun := by
  intro s t x rest hin hstep hchange
  cases x with
  | reset p => exact .inl ⟨p, rfl⟩
  | command w =>
    obtain ⟨-, htr, -⟩ | ⟨-, -, hbs, -⟩ := step_word_cases hin hstep
    · obtain ⟨hct, hv, hi⟩ | ⟨hp, i, hd, hkind⟩ := htr.table_cases
      · exact absurd hchange (by simp [hct, hv, hi])
      · exact .inr ⟨hp, w, i, rfl, hd, hkind⟩
    · exact absurd hchange (by simp [hbs])

/-! ### Loading a table (R94) -/

/-- Writing back what an entry holds changes nothing. -/
theorem put_lookup_self (t : CodeTable) (v : Byte) : t.put v (t.lookup v) = t := by
  simp [CodeTable.put, CodeTable.lookup]

/-- A second write to an entry leaves nothing of the first (R92). -/
theorem put_put (t : CodeTable) (v : Byte) (c d : Bits) : (t.put v c).put v d = t.put v d := by
  simp [CodeTable.put]

theorem bspWord_ctsel {codeMax : Nat} {u : Bsp} (hp : u.phase ≠ .run) (e : Byte) :
    bspWord codeMax u (encode (.ctsel e)) = { u with ct := u.ct.put e [], selV := true, selI := e } :=
  bspWord_encode rfl (exec_ctsel (decide_eq_true hp))

theorem bspWord_ctbit {codeMax : Nat} {u : Bsp} (hp : u.phase ≠ .run) (hv : u.selV = true)
    (hlen : (u.ct.lookup u.selI).length < codeMax) (b : Bool) :
    bspWord codeMax u (encode (.ctbit b)) = { u with ct := u.ct.put u.selI (u.ct.lookup u.selI ++ [b]) } :=
  bspWord_encode rfl (exec_ctbit (decide_eq_true ⟨hp, hv, hlen⟩))

/-- The CTBITs of digits that fit append them to the selected entry (R93). -/
theorem foldl_ctbit {codeMax : Nat} {ds : Bits} {u : Bsp} (hp : u.phase ≠ .run) (hv : u.selV = true)
    (hlen : (u.ct.lookup u.selI).length + ds.length ≤ codeMax) :
    (wordsOf (ds.map .ctbit)).foldl (bspWord codeMax) u =
      { u with ct := u.ct.put u.selI (u.ct.lookup u.selI ++ ds) } := by
  induction ds generalizing u with
  | nil => simp [wordsOf, put_lookup_self]
  | cons b ds ih =>
    rw [List.length_cons] at hlen
    have hbit := bspWord_ctbit (codeMax := codeMax) hp hv (by omega) b
    have hrest := ih (u := { u with ct := u.ct.put u.selI (u.ct.lookup u.selI ++ [b]) }) hp hv (by simp; omega)
    simpa [wordsOf, hbit, put_put] using hrest

/-- A CTCODE selects its entry and leaves it with its code, whatever it held (R92, R93). -/
theorem foldl_ctcode {codeMax : Nat} {u : Bsp} {e : Byte} {ds : Bits} (hp : u.phase ≠ .run) (hlen : ds.length ≤ codeMax) :
    (wordsOf (ctcode e ds)).foldl (bspWord codeMax) u = { u with ct := u.ct.put e ds, selV := true, selI := e } := by
  have hbits := foldl_ctbit (codeMax := codeMax) (ds := ds)
    (u := { u with ct := u.ct.put e [], selV := true, selI := e }) hp rfl (by simpa using hlen)
  simpa [wordsOf, ctcode, bspWord_ctsel hp, put_put] using hbits

/-- The table after each pair's code has been written to its key, in order. -/
def putAll (t : CodeTable) (pairs : List (Byte × Bits)) : CodeTable := pairs.foldl (fun t p => t.put p.1 p.2) t

/-- A key reads the code of its last pair, and a byte without a pair reads as before. -/
theorem lookup_putAll (t : CodeTable) (pairs : List (Byte × Bits)) (v : Byte) :
    (putAll t pairs).lookup v =
      ((pairs.reverse.find? (fun p => decide (p.1 = v))).map (fun p => p.2)).getD (t.lookup v) := by
  induction pairs generalizing t with
  | nil => rfl
  | cons p ps ih =>
    rw [putAll, List.foldl_cons, ← putAll, ih, lookup_put, List.reverse_cons, List.find?_append]
    by_cases h : p.1 = v
    · cases ps.reverse.find? (fun p => decide (p.1 = v)) <;> simp [h]
    · simp [h, Ne.symm h]

/-- The words of a list of pairs write every code to its key, and beside the table only SEL (R94). -/
theorem foldl_loadTable {codeMax : Nat} {pairs : List (Byte × Bits)} {u : Bsp} (hp : u.phase ≠ .run)
    (hlen : ∀ p ∈ pairs, p.2.length ≤ codeMax) :
    ∃ selV selI, (wordsOf (loadTable pairs)).foldl (bspWord codeMax) u =
      { u with ct := putAll u.ct pairs, selV := selV, selI := selI } := by
  induction pairs generalizing u with
  | nil => exact ⟨u.selV, u.selI, rfl⟩
  | cons p ps ih =>
    obtain ⟨hhead, htail⟩ := List.forall_mem_cons.mp hlen
    obtain ⟨selV, selI, hrest⟩ := ih (u := { u with ct := u.ct.put p.1 p.2, selV := true, selI := p.1 }) hp htail
    refine ⟨selV, selI, ?_⟩
    calc (wordsOf (loadTable (p :: ps))).foldl (bspWord codeMax) u
        = (wordsOf (loadTable ps)).foldl (bspWord codeMax) ((wordsOf (ctcode p.1 p.2)).foldl (bspWord codeMax) u) := by
          simp [wordsOf, loadTable]
      _ = { u with ct := putAll u.ct (p :: ps), selV := selV, selI := selI } := by
          rw [foldl_ctcode hp hhead, hrest]; rfl

/-- A unit's words among those of commands are the words of its commands. -/
theorem wordsFor_wordsOf (u : UnitId) (is : List Instr) :
    wordsFor u (wordsOf is) = wordsOf (is.filter (fun i => decide (i.unit = u))) := by
  simp [wordsFor, wordsOf, List.filter_map, Function.comp_def, unitOf_encode]

theorem unit_of_mem_loadTable {pairs : List (Byte × Bits)} {i : Instr} (h : i ∈ loadTable pairs) : i.unit = .bsp := by
  obtain ⟨p, -, hi⟩ := List.mem_flatMap.mp h
  obtain rfl | hi := List.mem_cons.mp hi
  · rfl
  · obtain ⟨b, -, rfl⟩ := List.mem_map.mp hi
    rfl

/-- Settles O18: the run is BSP's fold of the pairs' words, which writes each code to its key. -/
theorem loadedTableHoldsTheCodes : Obligations.LoadedTableHoldsTheCodes := by
  intro s pairs hp hlen
  obtain ⟨selV, selI, hload⟩ :=
    foldl_loadTable (codeMax := s.config.codeMax) hp (fun p hmem => (hlen p hmem).2)
  have hbsp : wordsFor .bsp (wordsOf (loadTable pairs)) = wordsOf (loadTable pairs) := by
    rw [wordsFor_wordsOf, List.filter_eq_self.mpr (by simpa using fun i => unit_of_mem_loadTable)]
  have htwp : wordsFor .twp (wordsOf (loadTable pairs)) = [] := by
    rw [wordsFor_wordsOf, List.filter_eq_nil_iff.mpr (fun i hi => by simp [unit_of_mem_loadTable hi])]
    rfl
  refine ⟨_, runWords_eq _ s, ?_⟩
  rw [hbsp, htwp, hload]
  exact ⟨lookup_putAll s.bs.ct pairs, rfl⟩

end Sys2Proof.Proofs
end

section
/-! PROOFS. The bitstream packer (41_bitstream_packer.md): what each command does to it (R103 to R105), the phases (R110), and
what a whole run emits, of a covered input and of one with an absent byte (R107 to R109). -/

namespace Sys2Proof.Proofs

open Sys2Proof Sys2Proof.Machine

/-! ### The packed bytes of a code string (00_scope.md R10, R12) -/

theorem packed_eq_fullGroups {b : Bits} (h : b.length % 8 = 0) : packed b = fullGroups b := by
  rw [packed, if_pos h, List.append_nil]

theorem packed_eq_append_tail {b : Bits} (h : b.length % 8 ≠ 0) :
    packed b = fullGroups b ++ [byteOfBits (pad8 (tailBits b))] := by
  rw [packed, if_neg h]

theorem packed_length (b : Bits) : (packed b).length = (b.length + 7) / 8 := by
  by_cases h : b.length % 8 = 0
  · rw [packed_eq_fullGroups h, fullGroups_length]
    omega
  · rw [packed_eq_append_tail h, List.length_append, fullGroups_length, List.length_singleton]
    omega

/-- The bytes hold the code string and its padding, and no other bit (R108). -/
theorem eight_mul_packed_length (b : Bits) : 8 * (packed b).length = b.length + padlen b.length := by
  rw [packed_length, padlen]
  omega

/-- Read back most significant bit first, the packed bytes are the bits and then zeros (R109). -/
theorem packed_flatMap_bitsOfByte (b : Bits) :
    (packed b).flatMap bitsOfByte = b ++ List.replicate (padlen b.length) false := by
  have hjoin := groups_join b
  have hlen := tailBits_length b
  by_cases h : b.length % 8 = 0
  · have htail : tailBits b = [] := List.length_eq_zero_iff.mp (hlen.trans h)
    rw [htail, List.append_nil] at hjoin
    simp [packed_eq_fullGroups h, hjoin, padlen, h]
  · have hpad : 8 - (tailBits b).length = padlen b.length := by
      rw [hlen, padlen]
      omega
    calc (packed b).flatMap bitsOfByte
        = (fullGroups b).flatMap bitsOfByte ++ pad8 (tailBits b) := by
          rw [packed_eq_append_tail h, List.flatMap_append, List.flatMap_singleton,
            bitsOfByte_byteOfBits (pad8_length (by omega))]
      _ = b ++ List.replicate (padlen b.length) false := by
          rw [pad8, ← List.append_assoc, hjoin, hpad]

/-! ### The run of a covered input (R107, R108) -/

/-- BSP after BSBEG and the symbols whose code string is `b`: phase RUN, the bits of `b` appended to an empty run. -/
def runAfter (u : Bsp) (b : Bits) : Bsp := appendCode { clearBsp u with phase := .run } b

/-- BSP after BSEND in phase RUN. -/
def endRun (u : Bsp) : Bsp := { flushTail u with pad := padOfCnt u.cnt, phase := .done }

@[simp] theorem runAfter_ct (u : Bsp) (b : Bits) : (runAfter u b).ct = u.ct := by simp [runAfter]
@[simp] theorem runAfter_phase (u : Bsp) (b : Bits) : (runAfter u b).phase = .run := by simp [runAfter]
@[simp] theorem runAfter_pad (u : Bsp) (b : Bits) : (runAfter u b).pad = 0 := by simp [runAfter]
@[simp] theorem runAfter_cause (u : Bsp) (b : Bits) : (runAfter u b).cause = .none := by simp [runAfter]
@[simp] theorem runAfter_ill (u : Bsp) (b : Bits) : (runAfter u b).ill = u.ill := by simp [runAfter]

theorem runAfter_out (u : Bsp) (b : Bits) : (runAfter u b).out = fullGroups b := by
  obtain ⟨hout, -⟩ := appendCode_spec { clearBsp u with phase := .run } b
  exact hout

theorem heldBits_runAfter (u : Bsp) (b : Bits) : heldBits (runAfter u b) = tailBits b := by
  obtain ⟨-, hheld, -⟩ := appendCode_spec { clearBsp u with phase := .run } b
  exact hheld

theorem runAfter_cnt (u : Bsp) (b : Bits) : (runAfter u b).cnt.toNat = b.length % 8 := by
  rw [← heldBits_length, heldBits_runAfter, tailBits_length]

theorem runAfter_acc_lt (u : Bsp) (b : Bits) : (runAfter u b).acc.toNat < 2 ^ (runAfter u b).cnt.toNat :=
  appendCode_acc_lt b (by simp)

/-- The flush makes the full groups and the held bits of a code string its packed bytes (R105, R12). -/
theorem flushTail_out_eq_packed {u : Bsp} {b : Bits} (hout : u.out = fullGroups b) (hheld : heldBits u = tailBits b) :
    (flushTail u).out = packed b := by
  have hcnt : u.cnt.toNat = b.length % 8 := by rw [← heldBits_length, hheld, tailBits_length]
  obtain ⟨h0, h⟩ | ⟨h0, h⟩ := flushTail_cases u
  · rw [h, hout, packed_eq_fullGroups (by rw [← hcnt, h0]; rfl)]
  · have hmod : b.length % 8 ≠ 0 := fun hz => h0 (BitVec.eq_of_toNat_eq (hcnt.trans hz))
    rw [h, hout, hheld, packed_eq_append_tail hmod]

theorem endRun_runAfter_out (u : Bsp) (b : Bits) : (endRun (runAfter u b)).out = packed b :=
  flushTail_out_eq_packed (runAfter_out u b) (heldBits_runAfter u b)

theorem endRun_runAfter_pad (u : Bsp) (b : Bits) : (endRun (runAfter u b)).pad.toNat = padlen b.length := by
  rw [endRun, padOfCnt_toNat, runAfter_cnt, padlen]

theorem bspWord_bsend {codeMax : Nat} {u : Bsp} (hp : u.phase = .run) :
    bspWord codeMax u (encode .bsend) = endRun u :=
  bspWord_encode rfl (exec_bsend (decide_eq_true hp))

/-- The words of a whole run of a covered input begin it, append the code string and end it. -/
theorem foldl_bspack {codeMax : Nat} {input : List Byte} {u : Bsp} {b : Bits} (hp : u.phase ≠ .run)
    (hb : bitseq u.ct input = some b) :
    (wordsOf (bspack input)).foldl (bspWord codeMax) u = endRun (runAfter u b) := by
  have hwords : wordsOf (bspack input) = wordsOf (.bsbeg :: input.map .bssym) ++ [encode .bsend] := by
    simp [wordsOf, bspack]
  rw [hwords, List.foldl_append, foldl_bsbeg_bssym hp hb]
  exact bspWord_bsend (runAfter_phase u b)

/-- Settles O27: the run appends the code string to an empty run, and its end makes of that the packed bytes. -/
theorem bspRunPacksTheInput : Obligations.BspRunPacksTheInput := by
  intro ws input s b hp hws hb
  have hout := endRun_runAfter_out s.bs b
  have hpad := endRun_runAfter_pad s.bs b
  refine ⟨_, runWords_eq ws s, ?_⟩
  rw [hws, foldl_bspack hp hb]
  exact ⟨rfl, by rw [pack, hb, hout]; rfl, by rw [hout, packed_length], hpad,
    by rw [hout, hpad, eight_mul_packed_length], flushTail_acc (runAfter_acc_lt s.bs b), flushTail_cnt _,
    by simp [endRun], by simp [endRun], by simp [endRun]⟩

/-- Settles O29: BS.OUT is the packed code string, and BS.PAD the number of zeros after it. -/
theorem unpackingGivesBackTheCodeString : Obligations.UnpackingGivesBackTheCodeString := by
  intro ws input s b hp hws hb
  refine ⟨_, runWords_eq ws s, ?_⟩
  rw [hws, foldl_bspack hp hb]
  refine ⟨rfl, ?_⟩
  rw [endRun_runAfter_out, endRun_runAfter_pad, packed_flatMap_bitsOfByte]

/-! ### The run that meets an absent byte (R108, 60_exceptions.md R141, R151) -/

/-- BSP after a BSSYM of an absent byte value in phase RUN. -/
def faultAt (v : Byte) (u : Bsp) : Bsp := { u with cause := .missingCodeEntry, fsym := v, phase := .fault }

theorem bspWord_bssym_absent {codeMax : Nat} {u : Bsp} {v : Byte} (hp : u.phase = .run) (hv : u.ct.lookup v = []) :
    bspWord codeMax u (encode (.bssym v)) = faultAt v u :=
  bspWord_encode rfl (exec_bssym_absent (decide_eq_true hp) hv)

theorem bspWord_refused {codeMax : Nat} {u : Bsp} {i : Instr} (hu : i.unit = .bsp)
    (ha : admitted (bspState codeMax u) i = false) : bspWord codeMax u (encode i) = { u with ill := true } :=
  bspWord_encode hu (by rw [exec_refused ha, hu]; rfl)

/-- Outside phase RUN the words of the BSSYMs and BSEND set BS.ILL and change nothing else (R151). -/
theorem foldl_bssym_bsend_refused {codeMax : Nat} {vs : List Byte} {u : Bsp} (hp : u.phase ≠ .run) :
    (wordsOf (vs.map .bssym ++ [.bsend])).foldl (bspWord codeMax) u = { u with ill := true } := by
  induction vs generalizing u with
  | nil => exact bspWord_refused rfl (decide_eq_false hp)
  | cons v vs ih =>
    have hword : bspWord codeMax u (encode (.bssym v)) = { u with ill := true } :=
      bspWord_refused rfl (decide_eq_false hp)
    have hrest := ih (u := { u with ill := true }) hp
    simpa [wordsOf, hword] using hrest

/-- The words of a run fault at its first absent byte, and the later ones are refused. -/
theorem foldl_bspack_absent {codeMax : Nat} {before after : List Byte} {v : Byte} {u : Bsp} {b : Bits}
    (hp : u.phase ≠ .run) (hb : bitseq u.ct before = some b) (hv : u.ct.lookup v = []) :
    (wordsOf (bspack (before ++ v :: after))).foldl (bspWord codeMax) u =
      { faultAt v (runAfter u b) with ill := true } := by
  have hwords : wordsOf (bspack (before ++ v :: after)) =
      wordsOf (.bsbeg :: before.map .bssym) ++ encode (.bssym v) :: wordsOf (after.map .bssym ++ [.bsend]) := by
    simp [wordsOf, bspack]
  rw [hwords, List.foldl_append, foldl_bsbeg_bssym hp hb, List.foldl_cons, ← runAfter,
    bspWord_bssym_absent (runAfter_phase u b) (by simpa using hv), foldl_bssym_bsend_refused (by simp [faultAt])]

/-- Settles O28: the fault entry leaves the run's bits as they are, and nothing but BS.ILL changes after it. -/
theorem bspRunFaultsAtTheFirstAbsentByte : Obligations.BspRunFaultsAtTheFirstAbsentByte := by
  intro ws before after v s b hp hws hb hv
  refine ⟨_, runWords_eq ws s, ?_⟩
  rw [hws, foldl_bspack_absent hp hb hv]
  exact ⟨rfl, rfl, rfl, runAfter_out s.bs b, heldBits_runAfter s.bs b, runAfter_cnt s.bs b, runAfter_pad s.bs b,
    runAfter_ct s.bs b, rfl⟩

/-! ### BSSYM and BSEND (R104, R105) -/

/-- Settles O20: `appendCode` writes three registers, as `appendCode_spec` says; an absent byte value takes the fault entry. -/
theorem bssymAppendsTheCode : Obligations.BssymAppendsTheCode := by
  intro v
  refine ⟨rfl, fun s => ⟨fun hp hv => ?_, fun hp hv => exec_bssym_absent (decide_eq_true hp) hv,
    fun hp => exec_refused (i := .bssym v) (decide_eq_false hp)⟩⟩
  obtain ⟨hout, hheld, hacc, hframe⟩ := appendCode_spec s.bs (s.bs.ct.lookup v)
  refine ⟨_, _, _, ?_, hout, appendCode_out_length _ _, appendCode_cnt _ _, hheld, hacc⟩
  rw [exec_bssym_present (decide_eq_true hp) hv, ← hframe]

/-- Settles O22: the two ways the tail is flushed; with a bit held the pad length is no multiple of 8. -/
theorem bsendFlushesTheTail : Obligations.BsendFlushesTheTail := by
  refine ⟨rfl, fun s => ⟨fun hp h0 => ?_, fun hp h0 => ?_, fun hp => exec_refused (i := .bsend) (decide_eq_false hp)⟩⟩
  all_goals rw [exec_bsend (decide_eq_true hp)]
  · obtain ⟨-, hflush⟩ | ⟨hne, -⟩ := flushTail_cases s.bs
    · rw [hflush, h0]; rfl
    · exact absurd h0 hne
  · obtain ⟨hz, -⟩ | ⟨-, hflush⟩ := flushTail_cases s.bs
    · exact absurd hz h0
    · have hpos : s.bs.cnt.toNat ≠ 0 := fun h => h0 (BitVec.eq_of_toNat_eq h)
      refine ⟨padOfCnt s.bs.cnt, ?_, by rw [hflush]; rfl⟩
      rw [padOfCnt_toNat]
      omega

/-! ### Phases (R110) -/

/-- The table of R110 as a function: the phase after a command, by the phase before. -/
def phaseAfter (s : State) : Instr → Phase
  | .bsbeg => .run
  | .bssym v => if s.bs.phase = .run then if s.bs.ct.lookup v = [] then .fault else .run else s.bs.phase
  | .bsend => if s.bs.phase = .run then .done else s.bs.phase
  | _ => s.bs.phase

/-- A refused command's entry in the table is the phase before. -/
theorem phaseAfter_refused {i : Instr} {s : State} (ha : admitted s i = false) : phaseAfter s i = s.bs.phase := by
  cases i with
  | bsbeg => exact (not_not.mp (of_decide_eq_false ha)).symm
  | bssym _ | bsend => exact if_neg (of_decide_eq_false ha)
  | _ => rfl

theorem exec_phase {i : Instr} {s t : State} (he : exec i s = .next t) : t.bs.phase = phaseAfter s i := by
  cases ha : admitted s i with
  | false =>
    cases (exec_refused ha).symm.trans he
    rw [phaseAfter_refused ha]
    cases i.unit <;> rfl
  | true =>
    cases i with
    | ctclr => cases (exec_ctclr ha).symm.trans he; rfl
    | ctsel e => cases (exec_ctsel ha).symm.trans he; rfl
    | ctbit b => cases (exec_ctbit ha).symm.trans he; rfl
    | bsbeg => cases (exec_bsbeg ha).symm.trans he; rfl
    | bssym v =>
      have hp : s.bs.phase = .run := of_decide_eq_true ha
      by_cases hv : s.bs.ct.lookup v = []
      · cases (exec_bssym_absent ha hv).symm.trans he
        simp [phaseAfter, hp, hv]
      · cases (exec_bssym_present ha hv).symm.trans he
        simp [phaseAfter, hp, hv]
    | bsend =>
      cases (exec_bsend ha).symm.trans he
      exact (if_pos (of_decide_eq_true ha)).symm
    | twbeg _ | twbyte _ =>
      obtain ⟨_, hnext, -, -, -, hbs⟩ := exec_next _ s
      cases hnext.symm.trans he
      rw [hbs rfl]
      rfl

/-- A BSP word leaves BS.ILL set if, and only if, it was set before or the word is refused (60_exceptions.md R144). -/
theorem BspTransition.ill_iff {s : State} {w : Word} {u : Bsp} (htr : BspTransition s w u) :
    u.ill = true ↔ s.bs.ill = true ∨ ∀ i, decode w = .command i → admitted s i = false := by
  constructor
  · intro hill
    cases htr with
    | refused h => exact .inr h
    | ctclr _ _ | ctsel _ _ | ctbit _ _ _ _ | bsbeg _ _ | bssymAbsent _ _ _ => exact .inl hill
    | bssymPresent _ _ _ | bsend _ _ => exact .inl (by simpa using hill)
  · intro h
    by_contra hclear
    obtain ⟨hill, i, hd, ha⟩ := htr.executed (Bool.eq_false_of_not_eq_true hclear)
    obtain hset | href := h
    · exact absurd hset (by simp [hill])
    · exact absurd (href i hd) (by simp [ha])

/-- Settles O24: a command's column is `phaseAfter`, a reserved word is refused, and BS.ILL is the transition's. -/
theorem bspPhaseTransitions : Obligations.BspPhaseTransitions := by
  intro s w rest hin hbit
  have hu : unitOf w = .bsp := (unitOf_eq_bsp_iff w).mpr hbit
  obtain ⟨t, ht, -⟩ := wordEffect_next w { s with inputs := rest }
  have hphase : ∀ i, decode w = .command i → t.bs.phase = phaseAfter s i := fun i hd =>
    exec_phase (s := { s with inputs := rest }) ((wordEffect_command hd _).symm.trans ht)
  refine ⟨t, (step_command hin).trans ht, fun i hd hi => ?_, fun hd => hphase _ hd, fun v hd => ?_, fun hd => ?_,
    fun u hd => ?_, (bspTransition_of_wordEffect hu ht).ill_iff⟩
  · obtain rfl | ⟨e, rfl⟩ | ⟨b, rfl⟩ := hi <;> exact hphase _ hd
  · rw [hphase _ hd]
    exact ⟨fun ⟨hp, hv⟩ => (if_pos hp).trans (if_neg hv), fun ⟨hp, hv⟩ => (if_pos hp).trans (if_pos hv),
      fun hp => if_neg hp⟩
  · rw [hphase _ hd]
    exact ⟨fun hp => if_pos hp, fun hp => if_neg hp⟩
  · cases (wordEffect_reserved hd _).symm.trans ht
    cases u <;> rfl

/-- Settles O19: BSBEG clears the run or is refused; in the table no other command leaves DONE or FAULT. -/
theorem bsbegClearsTheRunAndBegins : Obligations.BsbegClearsTheRunAndBegins := by
  refine ⟨rfl, fun s => ⟨fun hp => exec_bsbeg (decide_eq_true hp),
    fun hp => exec_refused (i := .bsbeg) (decide_eq_false (not_not.mpr hp)), fun hend i t hi he => ?_⟩⟩
  have hp : s.bs.phase ≠ .run := by obtain h | h := hend <;> simp [h]
  rw [exec_phase he]
  cases i with
  | bsbeg => exact absurd rfl hi
  | bssym _ | bsend => exact if_neg hp
  | _ => rfl

end Sys2Proof.Proofs
end

section
/-! PROOFS. The tree word packer (42_tree_word_packer.md): what each command does to it (R121, R122), the phases (R127), and
what a whole run of an even and of an odd number of bytes gives (R126). -/

namespace Sys2Proof.Proofs

open Sys2Proof Sys2Proof.Machine

/-! ### TWBEG, by its count (R121) -/

theorem exec_twbeg_zero {s : State} {n : Count} (hp : s.tw.phase ≠ .run) (h0 : n = 0) :
    exec (.twbeg n) s = .next { s with tw := { clearTwp 0 s.tw with txt := literal [], phase := .done } } := by
  subst h0
  exact if_neg hp

theorem exec_twbeg_even {s : State} {n : Count} (hp : s.tw.phase ≠ .run) (h0 : n ≠ 0) (hn : n.toNat % 2 = 0) :
    exec (.twbeg n) s = .next { s with tw := { clearTwp n s.tw with txt := openLiteral [], phase := .run } } := by
  have heven : ¬ n.getLsbD 0 = true := by rw [count_getLsbD_zero, hn]; decide
  exact (if_neg hp).trans ((if_neg heven).trans (if_neg h0))

theorem exec_twbeg_odd {s : State} {n : Count} (hp : s.tw.phase ≠ .run) (hn : n.toNat % 2 = 1) :
    exec (.twbeg n) s =
      .next { s with tw := { clearTwp n s.tw with cause := .malformedTreeLength, phase := .fault } } := by
  have hodd : n.getLsbD 0 = true := by rw [count_getLsbD_zero, hn]; rfl
  exact (if_neg hp).trans (if_pos hodd)

theorem exec_twbeg_refused {s : State} {n : Count} (hp : s.tw.phase = .run) :
    exec (.twbeg n) s = .next (refuse .twp s) :=
  exec_refused (i := .twbeg n) (decide_eq_false (not_not.mpr hp))

theorem exec_twbyte_refused {s : State} {v : Byte} (hp : s.tw.phase ≠ .run) :
    exec (.twbyte v) s = .next (refuse .twp s) :=
  exec_refused (i := .twbyte v) (decide_eq_false hp)

/-- Settles O31: the three classes of count, and the refusal in phase RUN. -/
theorem twbegDeclaresTheBuffer : Obligations.TwbegDeclaresTheBuffer := fun _ =>
  ⟨rfl, fun _ => ⟨exec_twbeg_zero, exec_twbeg_even, exec_twbeg_odd, exec_twbeg_refused⟩⟩

/-! ### TWBYTE (R122) -/

/-- The second byte of a pair in one equation: the brace and phase DONE are there when the byte was the last one. -/
theorem completePair_eq (v : Byte) (u : Twp) :
    completePair v u =
      { u with
        wout := u.wout ++ [word u.low v]
        txt := renderWord u.sep u.txt (word u.low v) ++ (if u.rem = 1 then [closeBrace] else [])
        sep := true
        haveLow := false
        rem := u.rem - 1
        phase := if u.rem = 1 then .done else u.phase } := by
  obtain ⟨h, heq⟩ | ⟨h, heq⟩ := completePair_cases v u
  · rw [heq, if_pos (sub_eq_zero.mp h), if_pos (sub_eq_zero.mp h)]
  · rw [heq, if_neg (sub_ne_zero.mp h), if_neg (sub_ne_zero.mp h), List.append_nil]

@[simp] theorem completePair_rem (v : Byte) (u : Twp) : (completePair v u).rem = u.rem - 1 := by
  rw [completePair_eq]

theorem completePair_phase (v : Byte) (u : Twp) :
    (completePair v u).phase = if (completePair v u).rem = 0 then .done else u.phase := by
  rw [completePair_rem, completePair_eq, if_congr sub_eq_zero rfl rfl]

/-- Settles O32: a low byte is held, a high byte completes the pair, and outside phase RUN neither is admitted. -/
theorem twbyteAssemblesAndRendersPairs : Obligations.TwbyteAssemblesAndRendersPairs := by
  intro v
  refine ⟨rfl, fun s => ⟨fun hp hh => exec_twbyte_low (decide_eq_true hp) hh, fun hp hh => ?_, exec_twbyte_refused⟩⟩
  refine ⟨word s.tw.low v, word_toNat s.tw.low v, ?_⟩
  rw [exec_twbyte_high (decide_eq_true hp) hh, completePair_eq, renderWord_eq, hp]
  rfl

/-! ### Phases (R127) -/

/-- An admitted TWBYTE that leaves bytes to come stays in phase RUN. -/
theorem exec_twbyte_phase_of_rem_ne_zero {s t : State} {v : Byte} (he : exec (.twbyte v) s = .next t)
    (hp : s.tw.phase = .run) (hrem : t.tw.rem ≠ 0) : t.tw.phase = .run := by
  cases hh : s.tw.haveLow with
  | false =>
    cases (exec_twbyte_low (decide_eq_true hp) hh).symm.trans he
    exact hp
  | true =>
    cases (exec_twbyte_high (decide_eq_true hp) hh).symm.trans he
    exact (completePair_phase v s.tw).trans ((if_neg hrem).trans hp)

/-- A high byte with which none is left to come ends the run. -/
theorem exec_twbyte_phase_of_rem_eq_zero {s t : State} {v : Byte} (he : exec (.twbyte v) s = .next t)
    (hp : s.tw.phase = .run) (hh : s.tw.haveLow = true) (hrem : t.tw.rem = 0) : t.tw.phase = .done := by
  cases (exec_twbyte_high (decide_eq_true hp) hh).symm.trans he
  exact (completePair_phase v s.tw).trans (if_pos hrem)

/-- A TWP word leaves TW.ILL set if, and only if, it was set before or the word is refused (60_exceptions.md R144). -/
theorem TwpTransition.ill_iff {s : State} {w : Word} {u : Twp} (htr : TwpTransition s w u) :
    u.ill = true ↔ s.tw.ill = true ∨ ∀ i, decode w = .command i → admitted s i = false := by
  constructor
  · intro hill
    cases htr with
    | refused h => exact .inr h
    | twbegOdd _ _ _ | twbegZero _ _ | twbegEven _ _ _ _ | twbyteLow _ _ _ => exact .inl hill
    | twbyteHigh _ _ _ => exact .inl (by simpa using hill)
  · intro h
    by_contra hclear
    obtain ⟨hill, i, hd, ha⟩ := htr.executed (Bool.eq_false_of_not_eq_true hclear)
    obtain hset | href := h
    · exact absurd hset (by simp [hill])
    · exact absurd (href i hd) (by simp [ha])

/-- Settles O34: each entry of the table by the equation of its command, and TW.ILL is the transition's. -/
theorem twpPhaseTransitions : Obligations.TwpPhaseTransitions := by
  intro s w rest hin hbit
  have hu : unitOf w = .twp := (unitOf_eq_twp_iff w).mpr hbit
  obtain ⟨t, ht, -⟩ := wordEffect_next w { s with inputs := rest }
  have hexec : ∀ {i}, decode w = .command i → exec i { s with inputs := rest } = .next t := fun hd =>
    (wordEffect_command hd _).symm.trans ht
  have hnext : ∀ {i t'}, decode w = .command i → exec i { s with inputs := rest } = .next t' → t' = t := fun hd he =>
    Host.Outcome.next.inj (he.symm.trans (hexec hd))
  refine ⟨t, (step_command hin).trans ht,
    fun n hd => ⟨fun hp => ?_, fun hp h0 => ?_, fun hp h0 hn => ?_, fun hp hn => ?_⟩,
    fun v hd => ⟨fun hp => exec_twbyte_phase_of_rem_ne_zero (hexec hd) hp,
      fun hp hh => exec_twbyte_phase_of_rem_eq_zero (hexec hd) hp hh,
      fun hp => ?_⟩,
    fun u hd => ?_, (twpTransition_of_wordEffect hu ht).ill_iff⟩
  · exact hnext hd (exec_twbeg_refused hp) ▸ hp
  · exact hnext hd (exec_twbeg_zero hp h0) ▸ rfl
  · exact hnext hd (exec_twbeg_even hp h0 hn) ▸ rfl
  · exact hnext hd (exec_twbeg_odd hp hn) ▸ rfl
  · exact hnext hd (exec_twbyte_refused hp) ▸ rfl
  · cases (wordEffect_reserved hd _).symm.trans ht
    cases u <;> rfl

/-! ### The run of an even number of bytes (R126, first case) -/

theorem twpWord_twbeg_zero {u : Twp} (hp : u.phase ≠ .run) :
    twpWord u (encode (.twbeg 0)) = { clearTwp 0 u with txt := literal [], phase := .done } :=
  twpWord_encode rfl (exec_twbeg_zero hp rfl)

/-- The two bytes that are the last ones complete a pair and the run. -/
theorem twpWord_lastPair {u : Twp} (hp : u.phase = .run) (hh : u.haveLow = false) (hrem : u.rem.toNat = 2)
    (lo hi : Byte) :
    twpWord (twpWord u (encode (.twbyte lo))) (encode (.twbyte hi)) =
      { afterPair lo hi u with txt := (afterPair lo hi u).txt ++ [closeBrace], phase := .done } := by
  have htwo : u.rem = 2 := BitVec.eq_of_toNat_eq hrem
  rw [twpWord_twbyte_low hp hh, twpWord_twbyte_high (u := { u with low := lo, haveLow := true, rem := u.rem - 1 }) hp rfl,
    completePair_eq]
  simp [htwo, afterPair]

/-- A run that was at `u` has ended at `t`, with exactly the bytes of `buf`. -/
structure TwpCompletion (u : Twp) (buf : List Byte) (t : Twp) : Prop where
  phase : t.phase = .done
  wout : ∃ vs, words buf = some vs ∧ t.wout = u.wout ++ vs
  ill : t.ill = u.ill

theorem TwpCompletion.cons_pair {u t : Twp} {lo hi : Byte} {rest : List Byte}
    (h : TwpCompletion (afterPair lo hi u) rest t) : TwpCompletion u (lo :: hi :: rest) t where
  phase := h.phase
  wout := by
    obtain ⟨vs, hvs, hw⟩ := h.wout
    exact ⟨word lo hi :: vs, by rw [words, hvs]; rfl, by simp [hw, afterPair]⟩
  ill := h.ill

/-- Exactly the TWBYTEs the run still needs, two at a time as `words` takes them. -/
theorem twpCompletion_foldl : ∀ {buf : List Byte} {u : Twp}, u.phase = .run → u.haveLow = false → buf ≠ [] →
    buf.length % 2 = 0 → u.rem.toNat = buf.length →
    TwpCompletion u buf ((wordsOf (buf.map .twbyte)).foldl twpWord u)
  | [], _, _, _, hne, _, _ => absurd rfl hne
  | [_], _, _, _, _, heven, _ => by cases heven
  | [lo, hi], u, hp, hh, _, _, hrem => by
    have heq : (wordsOf ([lo, hi].map .twbyte)).foldl twpWord u = _ := twpWord_lastPair hp hh hrem lo hi
    rw [heq]
    exact ⟨rfl, ⟨[word lo hi], rfl, rfl⟩, rfl⟩
  | lo :: hi :: v :: rest, u, hp, hh, _, heven, hrem => by
    simp only [List.length_cons] at heven hrem
    have hpair := twpWord_pair hp hh (by omega) lo hi
    have hrem' := afterPair_rem_toNat (u := u) (by omega) lo hi
    have ih := twpCompletion_foldl (buf := v :: rest) (u := afterPair lo hi u) hp rfl (List.cons_ne_nil v rest)
      (by simp only [List.length_cons]; omega) (by simp only [List.length_cons]; omega)
    have hfold : (wordsOf ((lo :: hi :: v :: rest).map .twbyte)).foldl twpWord u =
        (wordsOf ((v :: rest).map .twbyte)).foldl twpWord (afterPair lo hi u) := by rw [← hpair]; rfl
    exact hfold ▸ ih.cons_pair

theorem twpack_count_toNat {buf : List Byte} (hlt : buf.length < 2 ^ 24) :
    (BitVec.ofNat 24 buf.length : Count).toNat = buf.length := by
  rw [BitVec.toNat_ofNat, Nat.mod_eq_of_lt hlt]

/-- The words of a whole run of an even number of bytes end it, with the invariant, which fixes the rest of its result. -/
theorem foldl_twpack_even {buf : List Byte} {u : Twp} (hp : u.phase ≠ .run) (heven : buf.length % 2 = 0)
    (hlt : buf.length < 2 ^ 24) :
    ∃ t, (wordsOf (twpack buf)).foldl twpWord u = t ∧ TwpInv t ∧ t.phase = .done ∧ words buf = some t.wout ∧
      t.ill = u.ill := by
  by_cases hbuf : buf = []
  · subst hbuf
    exact ⟨_, twpWord_twbeg_zero hp, twpInv_beginEmpty u, rfl, rfl, rfl⟩
  · have hcount := twpack_count_toNat hlt
    have hn : (BitVec.ofNat 24 buf.length : Count).toNat % 2 = 0 := by rw [hcount, heven]
    have h0 : (BitVec.ofNat 24 buf.length : Count) ≠ 0 := fun h => by
      rw [h] at hcount
      exact hbuf (List.length_eq_zero_iff.mp hcount.symm)
    have hinv := foldl_twpWord_inv (unitOf_of_mem_twbytes (buf := buf)) (twpInv_begin h0 hn u)
    obtain ⟨hphase, ⟨vs, hvs, hwout⟩, hill⟩ := twpCompletion_foldl
      (u := { clearTwp (BitVec.ofNat 24 buf.length) u with txt := openLiteral [], phase := .run })
      rfl rfl hbuf heven hcount
    exact ⟨_, foldl_twbeg_twbyte hp h0 hn, hinv, hphase, by rw [hvs, hwout]; rfl, hill⟩

/-- Settles O36: the run's end and its words by the pairs of `buf`; the text, TW.REM, TW.HAVE and TW.CAUSE by the invariant. -/
theorem twpRunRendersTheBuffer : Obligations.TwpRunRendersTheBuffer := by
  intro ws buf s hp heven hlt hws
  obtain ⟨t, ht, hinv, hphase, hwords, hill⟩ := foldl_twpack_even hp heven hlt
  obtain ⟨hrem, hhave, htxt⟩ := hinv.done hphase
  refine ⟨_, runWords_eq ws s, ?_⟩
  rw [hws, ht]
  exact ⟨hphase, hwords, words_length hwords,
    fun _ lo hi hlo hhi => ⟨word lo hi, words_getElem? hwords hlo hhi, word_toNat lo hi⟩,
    htxt, hrem, hhave, hinv.cause_none (by simp [hphase]), hill⟩

/-! ### The run of an odd number of bytes (R126, second case; 60_exceptions.md R142, R151) -/

theorem twpWord_twbeg_odd {u : Twp} {n : Count} (hp : u.phase ≠ .run) (hn : n.toNat % 2 = 1) :
    twpWord u (encode (.twbeg n)) = { clearTwp n u with cause := .malformedTreeLength, phase := .fault } :=
  twpWord_encode rfl (exec_twbeg_odd hp hn)

theorem twpWord_twbyte_refused {u : Twp} (hp : u.phase ≠ .run) (v : Byte) :
    twpWord u (encode (.twbyte v)) = { u with ill := true } :=
  twpWord_encode rfl (exec_twbyte_refused hp)

/-- Outside phase RUN the words of one TWBYTE or more set TW.ILL and change nothing else (R151). -/
theorem foldl_twbyte_refused {v : Byte} {vs : List Byte} {u : Twp} (hp : u.phase ≠ .run) :
    (wordsOf ((v :: vs).map .twbyte)).foldl twpWord u = { u with ill := true } := by
  induction vs generalizing u v with
  | nil => exact twpWord_twbyte_refused hp v
  | cons x xs ih =>
    have hrest := ih (v := x) (u := { u with ill := true }) hp
    simpa [wordsOf, twpWord_twbyte_refused hp] using hrest

theorem foldl_twpack (buf : List Byte) (u : Twp) :
    (wordsOf (twpack buf)).foldl twpWord u =
      (wordsOf (buf.map .twbyte)).foldl twpWord (twpWord u (encode (.twbeg (BitVec.ofNat 24 buf.length)))) := rfl

/-- The words of a whole run of an odd number of bytes fault at TWBEG, and there is a byte to refuse. -/
theorem foldl_twpack_odd {buf : List Byte} {u : Twp} (hp : u.phase ≠ .run) (hodd : buf.length % 2 = 1)
    (hlt : buf.length < 2 ^ 24) :
    (wordsOf (twpack buf)).foldl twpWord u =
      { clearTwp (BitVec.ofNat 24 buf.length) u with cause := .malformedTreeLength, phase := .fault, ill := true } := by
  have hfault := twpWord_twbeg_odd (n := BitVec.ofNat 24 buf.length) hp ((twpack_count_toNat hlt).symm ▸ hodd)
  cases buf with
  | nil => cases hodd
  | cons v vs =>
    rw [foldl_twpack, hfault, foldl_twbyte_refused (by simp)]

/-- Settles O37: the fault entry at TWBEG leaves the cleared unit, and nothing but TW.ILL changes after it. -/
theorem oddTwpRunGivesNoOutput : Obligations.OddTwpRunGivesNoOutput := by
  intro ws buf s hp hodd hlt hws
  refine ⟨_, runWords_eq ws s, ?_⟩
  rw [hws, foldl_twpack_odd hp hodd hlt]
  exact ⟨rfl, rfl, twpack_count_toNat hlt, rfl, rfl, rfl, rfl, rfl⟩

end Sys2Proof.Proofs
end

section
/-! PROOFS. Exceptions (60_exceptions.md): what a refused word does (R143, R144), what an admitted command leaves alone
(R32), the fault entry as the host reads it (R150), the record of a faulted unit (R151), and what leaves it (R152). -/

namespace Sys2Proof.Proofs

open Sys2Proof Sys2Proof.Machine

/-! ### Refusal (R143, R144, R147) -/

/-- A word that is reserved or not admitted is refused by the unit it names. -/
theorem wordEffect_refused {w : Word} {s : State} (h : ∀ i, decode w = .command i → admitted s i = false) :
    wordEffect w s = .next (refuse (unitOf w) s) := by
  cases hd : decode w with
  | command i => rw [wordEffect_command hd, exec_refused (h i hd), decode_unit hd]
  | reserved u => rw [wordEffect_reserved hd, decode_reserved_unit hd]

/-- Settles O10: the refusal of the unit that bit 31 names, spelt out. -/
theorem refusalSetsOnlyTheUnitsIll : Obligations.RefusalSetsOnlyTheUnitsIll := by
  intro s w rest hin h
  rw [step_command hin, wordEffect_refused (s := { s with inputs := rest }) h]
  cases hbit : w.getLsbD 31 with
  | false => rw [(unitOf_eq_bsp_iff w).mpr hbit]; rfl
  | true => rw [(unitOf_eq_twp_iff w).mpr hbit]; rfl

/-! ### Admission and the ILL bits (R143, 10_state.md R32) -/

theorem admitted_setIll (s : State) (a b : Bool) (i : Instr) :
    admitted { s with bs := { s.bs with ill := a }, tw := { s.tw with ill := b } } i = admitted s i := by
  cases i <;> rfl

theorem admitted_setTwp {i : Instr} (hu : i.unit = .bsp) (s : State) (u : Twp) :
    admitted { s with tw := u } i = admitted s i := by
  cases i with
  | twbeg _ | twbyte _ => cases hu
  | _ => rfl

theorem admitted_setBsp {i : Instr} (hu : i.unit = .twp) (s : State) (u : Bsp) :
    admitted { s with bs := u } i = admitted s i := by
  cases i with
  | twbeg _ | twbyte _ => rfl
  | _ => cases hu

/-- A command that is admitted is a word that is not refused. -/
theorem encode_not_refused {i : Instr} {s : State} (ha : admitted s i = true) :
    ¬ ∀ j, decode (encode i) = .command j → admitted s j = false := fun h => by
  simp [h i (decode_encode i)] at ha

/-- An admitted command leaves the ILL bit of its unit by its transition, the other unit by its frame. -/
theorem exec_ill_of_admitted {i : Instr} {s t : State} (ha : admitted s i = true) (he : exec i s = .next t) :
    t.bs.ill = s.bs.ill ∧ t.tw.ill = s.tw.ill := by
  obtain ⟨_, hnext, -, -, htw, hbs⟩ := exec_next i s
  cases hnext.symm.trans he
  cases hu : i.unit with
  | bsp =>
    have hill := (bspTransition_of_exec (decode_encode i) hu he).ill_iff
    rw [or_iff_left (encode_not_refused ha)] at hill
    exact ⟨Bool.eq_iff_iff.mpr hill, by rw [htw hu]⟩
  | twp =>
    have hill := (twpTransition_of_exec (decode_encode i) hu he).ill_iff
    rw [or_iff_left (encode_not_refused ha)] at hill
    exact ⟨by rw [hbs hu], Bool.eq_iff_iff.mpr hill⟩

/-- Settles O11: `admitted` reads neither an ILL bit nor the other unit. -/
theorem admittedCommandsLeaveIllAlone : Obligations.AdmittedCommandsLeaveIllAlone := by
  intro i s t ha he
  obtain ⟨hbs, htw⟩ := exec_ill_of_admitted ha he
  exact ⟨hbs, htw, fun a b => (admitted_setIll s a b i).trans ha, fun hu u => (admitted_setTwp hu s u).trans ha,
    fun hu u => (admitted_setBsp hu s u).trans ha⟩

/-! ### The fault entry in BS_STAT (R141, R150, 10_state.md R39) -/

/-- A refusal by BSP sets bit 2 of BS_STAT. -/
theorem bsStat_refuse (s : State) : bsStat (refuse .bsp s) = bsStat s ||| 4#32 := by
  have hbit : field 2 (BitVec.ofBool true) = field 2 (BitVec.ofBool s.bs.ill) ||| 4#32 := by
    cases s.bs.ill <;> rfl
  simp only [refuse_bsp, bsStat, hbit, BitVec.or_assoc, BitVec.or_comm 4#32]

/-- Settles O21: in phase RUN the fault entry, read field by field; in another phase the refusal. -/
theorem bssymOfAnAbsentByteTakesTheFaultEntry : Obligations.BssymOfAnAbsentByteTakesTheFaultEntry := by
  intro s w rest v hin hd habsent
  rw [step_command hin, wordEffect_command hd]
  by_cases hp : s.bs.phase = .run
  · refine ⟨_, _, exec_bssym_absent (decide_eq_true hp) (habsent hp), rfl, rfl, rfl, rfl, rfl, rfl, fun _ => ?_,
      fun h => absurd hp h⟩
    exact ⟨bsStat_phase _, bsStat_ill _, bsStat_cause _, bsStat_cnt _, bsStat_pad _, bsStat_acc _, bsStat_fsym _⟩
  · exact ⟨_, _, exec_refused (i := .bssym v) (decide_eq_false hp), rfl, rfl, rfl, rfl, rfl, rfl,
      fun h => absurd h hp, fun _ => bsStat_refuse _⟩

/-! ### The record of a faulted unit (R151, R153) -/

/-- In phase FAULT only the table, SEL and BS.ILL can change before the next BSBEG. -/
theorem BspTransition.frame_of_fault {s : State} {w : Word} {u : Bsp} (htr : BspTransition s w u)
    (hp : s.bs.phase = .fault) (hd : decode w ≠ .command .bsbeg) :
    u = { s.bs with ct := u.ct, selV := u.selV, selI := u.selI, ill := u.ill } := by
  cases htr with
  | refused _ | ctclr _ _ | ctsel _ _ | ctbit _ _ _ _ => rfl
  | bsbeg hbeg _ => exact absurd hbeg hd
  | bssymAbsent _ hrun _ | bssymPresent _ hrun _ | bsend _ hrun => cases hp.symm.trans hrun

/-- In phase FAULT only TW.ILL can change before the next TWBEG. -/
theorem TwpTransition.frame_of_fault {s : State} {w : Word} {u : Twp} (htr : TwpTransition s w u)
    (hp : s.tw.phase = .fault) (hd : ∀ n, decode w ≠ .command (.twbeg n)) : u = { s.tw with ill := u.ill } := by
  cases htr with
  | refused _ => rfl
  | twbegOdd hbeg _ _ | twbegZero hbeg _ | twbegEven hbeg _ _ _ => exact absurd hbeg (hd _)
  | twbyteLow _ hrun _ | twbyteHigh _ hrun _ => cases hp.symm.trans hrun

/-- Settles O49: the unit the word names makes a transition of a faulted unit, and the other unit is as it was. -/
theorem aFaultedUnitKeepsItsRecord : Obligations.AFaultedUnitKeepsItsRecord := by
  intro s t w rest hin hstep
  obtain ⟨-, htr, htw, -⟩ | ⟨-, htr, hbs, -⟩ := step_word_cases hin hstep
  · refine ⟨fun hp hd => ?_, fun _ _ => by rw [htw]⟩
    rw [htr.frame_of_fault hp hd]
    exact ⟨hp, rfl, rfl, rfl, rfl, rfl, rfl⟩
  · refine ⟨fun hp _ => ?_, htr.frame_of_fault⟩
    rw [hbs]
    exact ⟨hp, rfl, rfl, rfl, rfl, rfl, rfl⟩

/-! ### Beginning a new run (R152, 41_bitstream_packer.md R103, 42_tree_word_packer.md R121) -/

/-- Outside a run BSBEG answers as from the reset unit with the same table, SEL and BS.ILL. -/
theorem exec_bsbeg_eq_of_reset {s : State} (hp : s.bs.phase ≠ .run) :
    exec .bsbeg s = exec .bsbeg { s with
      bs := { Bsp.reset with ct := s.bs.ct, selV := s.bs.selV, selI := s.bs.selI, ill := s.bs.ill } } :=
  if_neg hp

/-- Outside a run TWBEG answers as from the reset unit with the same TW.ILL. -/
theorem exec_twbeg_eq_of_reset {s : State} (hp : s.tw.phase ≠ .run) (n : Count) :
    exec (.twbeg n) s = exec (.twbeg n) { s with tw := { Twp.reset with ill := s.tw.ill } } :=
  if_neg hp

/-- Settles O25: the two states are the same once the unit that begins is the reset unit. -/
theorem beginCommandsForgetTheRunBefore : Obligations.BeginCommandsForgetTheRunBefore := by
  refine ⟨fun s t hs ht hct hselV hselI hill htw hconfig hinputs => ?_,
    fun n s t hs ht hill hbs hconfig hinputs => ?_⟩
  · rw [exec_bsbeg_eq_of_reset hs, exec_bsbeg_eq_of_reset ht, hct, hselV, hselI, hill, htw, hconfig, hinputs]
  · rw [exec_twbeg_eq_of_reset hs, exec_twbeg_eq_of_reset ht, hill, hbs, hconfig, hinputs]

end Sys2Proof.Proofs
end

section
/-! PROOFS. Reset (70_reset_and_hazards.md R170) and the host's order to a valid result of BSP (R172, R177). -/

namespace Sys2Proof.Proofs

open Sys2Proof Sys2Proof.Machine

/-- Settles O9: a step on reset is `applyReset` of the state without that input. -/
theorem resetInputReachesEverything : Obligations.ResetInputReachesEverything := fun _ _ _ hin => step_reset hin

/-! ### A loaded table covers its keys (40_code_table.md R94) -/

/-- Loaded after CTCLR, the table as a function: a key's last code, and absent elsewhere (R91). -/
theorem lookup_putAll_cleared (pairs : List (Byte × Bits)) :
    (putAll CodeTable.cleared pairs).lookup =
      fun v => ((pairs.reverse.find? (fun p => decide (p.1 = v))).map (fun p => p.2)).getD [] :=
  funext fun v => by rw [lookup_putAll, lookup_cleared]

/-- A byte that is some pair's key reads one of the pairs' codes. -/
theorem exists_mem_lookup_putAll {pairs : List (Byte × Bits)} {v : Byte} (t : CodeTable) (hv : ∃ p ∈ pairs, p.1 = v) :
    ∃ p ∈ pairs, (putAll t pairs).lookup v = p.2 := by
  cases hfind : pairs.reverse.find? (fun p => decide (p.1 = v)) with
  | none =>
    obtain ⟨p, hmem, hkey⟩ := hv
    exact absurd hkey (by simpa using List.find?_eq_none.mp hfind p (List.mem_reverse.mpr hmem))
  | some p =>
    exact ⟨p, List.mem_reverse.mp (List.mem_of_find?_eq_some hfind), by rw [lookup_putAll, hfind]; rfl⟩

/-- The code string of a covered input is its bytes' codes in input order (00_scope.md R11). -/
theorem bitseq_eq_flatMap {t : CodeTable} {input : List Byte} (h : ∀ v ∈ input, t.lookup v ≠ []) :
    bitseq t input = some (input.flatMap t.lookup) := by
  induction input with
  | nil => rfl
  | cons v vs ih =>
    obtain ⟨hv, hvs⟩ := List.forall_mem_cons.mp h
    rw [bitseq, if_neg hv, ih hvs, Option.map_some, List.flatMap_cons]

/-! ### The host's order (R172) -/

theorem bspWord_ctclr {codeMax : Nat} {u : Bsp} (hp : u.phase ≠ .run) :
    bspWord codeMax u (encode .ctclr) = { u with ct := CodeTable.cleared, selV := false, selI := 0 } :=
  bspWord_encode rfl (exec_ctclr (decide_eq_true hp))

/-- The words of BSP's commands are all BSP's. -/
theorem wordsFor_bsp_wordsOf {is : List Instr} (h : ∀ i ∈ is, i.unit = .bsp) :
    wordsFor .bsp (wordsOf is) = wordsOf is := by
  rw [wordsFor_wordsOf, List.filter_eq_self.mpr (by simpa using h)]

theorem unit_of_mem_bspack {input : List Byte} {i : Instr} (h : i ∈ bspack input) : i.unit = .bsp := by
  simp only [bspack, List.mem_append, List.mem_cons, List.mem_map, List.not_mem_nil, or_false] at h
  obtain (rfl | ⟨v, -, rfl⟩) | rfl := h <;> rfl

/-- CTCLR, a load and the run of an input the loaded table covers: the run of its code string from a unit that differs
from the one before in the table and SEL only. -/
theorem foldl_hostOrder {codeMax : Nat} {pairs : List (Byte × Bits)} {input : List Byte} {u : Bsp} {b : Bits}
    (hp : u.phase ≠ .run) (hlen : ∀ p ∈ pairs, p.2.length ≤ codeMax)
    (hb : bitseq (putAll CodeTable.cleared pairs) input = some b) :
    ∃ selV selI, (wordsOf (.ctclr :: loadTable pairs ++ bspack input)).foldl (bspWord codeMax) u =
      endRun (runAfter { u with ct := putAll CodeTable.cleared pairs, selV := selV, selI := selI } b) := by
  have hwords : wordsOf (.ctclr :: loadTable pairs ++ bspack input) =
      encode .ctclr :: (wordsOf (loadTable pairs) ++ wordsOf (bspack input)) := by
    simp [wordsOf]
  obtain ⟨selV, selI, hload⟩ := foldl_loadTable (codeMax := codeMax)
    (u := { u with ct := CodeTable.cleared, selV := false, selI := 0 }) hp hlen
  refine ⟨selV, selI, ?_⟩
  rw [hwords, List.foldl_cons, bspWord_ctclr hp, List.foldl_append, hload]
  exact foldl_bspack hp hb

/-- Settles O30: the cleared and loaded table covers the input, so the run ends well with the packed code string, and no
word of the order was refused. -/
theorem hostOrderGivesTheResult : Obligations.HostOrderGivesTheResult := by
  intro s pairs input hp hill hlen hkeys
  have hcovered : ∀ v ∈ input, (putAll CodeTable.cleared pairs).lookup v ≠ [] := by
    intro v hv
    obtain ⟨p, hmem, hcode⟩ := exists_mem_lookup_putAll CodeTable.cleared (hkeys v hv)
    rw [hcode]
    exact List.ne_nil_of_length_pos (hlen p hmem).1
  have hunit : ∀ i ∈ Instr.ctclr :: loadTable pairs ++ bspack input, i.unit = .bsp := by
    rintro i (_ | ⟨_, hi⟩)
    · rfl
    · exact (List.mem_append.mp hi).elim unit_of_mem_loadTable unit_of_mem_bspack
  obtain ⟨selV, selI, hrun⟩ := foldl_hostOrder (codeMax := s.config.codeMax) hp (fun p hmem => (hlen p hmem).2)
    (bitseq_eq_flatMap hcovered)
  refine ⟨_, runWords_eq _ s, ?_⟩
  rw [wordsFor_bsp_wordsOf hunit, hrun]
  exact ⟨by simp [bspResultValid, endedWell, endRun, hill], by rw [endRun_runAfter_out, lookup_putAll_cleared]⟩

end Sys2Proof.Proofs
end
